-- ==== Sys2Proof/Word.lean ====
section
/-! DEFINITION. The values of the adder block: one-bit ports, four-bit ports, and the unsigned number of a
vector (spec/00_scope.md R10, R12, R14). Nothing in the block reads a value as signed. -/

namespace Sys2Proof

/-- A `Bit` port: "integer constrained to {0,1}", typed by its width (R10, R18). -/
abbrev Bit := BitVec 1

/-- A four-bit port; bit 0 is the least significant bit (R12, R42). -/
abbrev Nibble := BitVec 4

/-- `value(v)`: the unsigned number of a vector, the sum over `i` of `v[i] * 2^i` (R14). -/
abbrev value {n : Nat} (v : BitVec n) : Nat := v.toNat

end Sys2Proof
end

