-- ==== Sys2Proof/Config.lean ====
section
/-! DEFINITION. The sizes the source fixes (spec/00_scope.md R9). The block has no free implementation
parameter and takes no configuration argument, so every entry here has a body and there is no free value. -/

namespace Sys2Proof

/-- RCA4 operand width `N` (R9). -/
def Config.nibbleWidth : Nat := 4

/-- The largest RCA4 operand: "two 4-bit unsigned values a, b (0–15 inclusive ...)" (R9, R122). -/
def Config.maxNibble : Nat := 15

/-- The carry-in of RCA4's stage 0: "stage 0 uses carry-in 0" (R9, R30). It is a constant, not a port. -/
def Config.stageZeroCarryIn : Bit := 0

/-- The code of the one cause, `PreconditionViolation` (R123). -/
def Config.preconditionViolationCode : Nat := 1

end Sys2Proof
end

