-- ==== Sys2Proof/Syntax.lean ====
section
/-! DEFINITION. The units, their ports, the signals a port can carry, the netlist notation (R71) and `Instr`: one
constructor per row of spec/opcode_table.json, with every way the spec gives the operands of an evaluation:
signals on the input ports (R80, R90, R100), integers (R81, R91, R101), netlist expressions (R71, R75). -/

namespace Sys2Proof

/-- The three units; "No other components exist" (R1). -/
inductive UnitName where
  | ha | fa | rca4
  deriving DecidableEq, Repr

/-- The two interface levels (R10). -/
inductive Level where
  | port | integer
  deriving DecidableEq, Repr

/-- The input ports, in port order (R26). -/
inductive PortName where
  | a | b | ci
  deriving DecidableEq, Repr

/-- The output ports (R26). -/
inductive OutPort where
  | s | co
  deriving DecidableEq, Repr

/-- What one bit of an input port carries: 0 or 1, or one of the values that are neither, "an undriven
(floating), unknown or contended signal" (R121). -/
inductive Signal where
  | bit (b : Bit)
  | undriven
  | unknown
  | contended
  deriving DecidableEq, Repr

/-- The signals on a four-bit input port, most significant first as the spec writes a vector (R13). -/
structure NibbleSignals where
  b3 : Signal
  b2 : Signal
  b1 : Signal
  b0 : Signal
  deriving DecidableEq, Repr

/-- A row's mnemonic, the name used at the port level (R70). -/
def UnitName.mnemonic : UnitName → String
  | .ha => "HA"
  | .fa => "FA"
  | .rca4 => "RCA4"

/-- The name of the same operation at the integer level (R70). -/
def UnitName.integerName : UnitName → String
  | .ha => "HalfAdder"
  | .fa => "FullAdder"
  | .rca4 => "RippleCarryAdder"

/-- A unit's input ports, in port order (R26). -/
def UnitName.inPorts : UnitName → List PortName
  | .ha => [.a, .b]
  | .fa => [.a, .b, .ci]
  | .rca4 => [.a, .b]

/-- The width of each of a unit's input ports (R26). -/
def UnitName.inPortWidth : UnitName → Nat
  | .ha => 1
  | .fa => 1
  | .rca4 => Config.nibbleWidth

/-- The width of a unit's output port (R26). -/
def UnitName.outPortWidth : UnitName → OutPort → Nat
  | .ha, _ => 1
  | .fa, _ => 1
  | .rca4, .s => Config.nibbleWidth
  | .rca4, .co => 1

/-- The number of arguments: HA 2, FA 3, RCA4 2 (R71, R72 check 3). -/
def UnitName.arity (u : UnitName) : Nat := u.inPorts.length

/-- The width of a unit's packed input vector `IN`: 2, 3 and 8 (R61, R62, R63). -/
def UnitName.inWidth (u : UnitName) : Nat := u.arity * u.inPortWidth

/-- The width of a unit's packed output vector `OUT`: 2, 2 and 5 (R61, R62, R63). -/
def UnitName.outWidth (u : UnitName) : Nat := u.outPortWidth .co + u.outPortWidth .s

/-- A NAME of the netlist notation (R71). -/
abbrev NetName := String

mutual
/-- `expr` of the netlist grammar (R71). -/
inductive Expr where
  /-- a declared input -/
  | name (n : NetName)
  /-- an output port of an earlier statement: `n.S`, `n.CO` -/
  | port (n : NetName) (p : OutPort)
  /-- one bit: `e[i]` -/
  | index (e : Expr) (i : Nat)
  /-- a slice: `e[hi:lo]` -/
  | slice (e : Expr) (hi lo : Nat)
  /-- a concatenation: the first part is the most significant (R13) -/
  | concat (parts : Parts)
  /-- a 1-bit constant: `0`, `1` -/
  | const1 (n : Nat)
  /-- a 4-bit constant in decimal: `4'd` DIGITS -/
  | const4d (n : Nat)
  /-- a 4-bit constant in binary, most significant digit first: `4'b` BITS -/
  | const4b (digits : List Bool)
  deriving DecidableEq, Repr

/-- The parts of a concatenation, one or more (R71). -/
inductive Parts where
  | one (e : Expr)
  | more (e : Expr) (rest : Parts)
  deriving DecidableEq, Repr
end

/-- `WIDTH` of a declaration: "WIDTH is 1 or 4" (R71). -/
inductive Width where
  | one | four
  deriving DecidableEq, Repr

/-- The number of bits a WIDTH stands for. -/
def Width.bits : Width → Nat
  | .one => 1
  | .four => Config.nibbleWidth

/-- `decl`: a declared input (R71). -/
structure Decl where
  name  : NetName
  width : Width
  deriving DecidableEq, Repr

/-- `stmt`: a named unit instance and its arguments (R71). -/
structure Stmt where
  name : NetName
  unit : UnitName
  args : List Expr
  deriving DecidableEq, Repr

/-- `out`: a named output of the netlist (R71). -/
structure OutDecl where
  name : NetName
  expr : Expr
  deriving DecidableEq, Repr

/-- `netlist` (R71): "a composition of unit instances". -/
structure Netlist where
  name  : NetName
  decls : List Decl
  stmts : List Stmt
  outs  : List OutDecl
  deriving DecidableEq, Repr

/-- The operands of a half adder. -/
inductive HaOperands where
  /-- signals on the ports `A` and `B` (R80) -/
  | port (a b : Signal)
  /-- `HalfAdder(a, b)` (R81) -/
  | integer (a b : Int)
  /-- the statement `site = HA(a, b)` (R71) -/
  | wired (site : NetName) (a b : Expr)
  deriving DecidableEq, Repr

/-- The operands of a full adder. -/
inductive FaOperands where
  /-- signals on the ports `A`, `B` and `CI` (R90) -/
  | port (a b ci : Signal)
  /-- `FullAdder(a, b, cin)` (R91) -/
  | integer (a b cin : Int)
  /-- the statement `site = FA(a, b, ci)` (R71) -/
  | wired (site : NetName) (a b ci : Expr)
  deriving DecidableEq, Repr

/-- The operands of a 4-bit ripple-carry adder; it has no carry-in (R26). -/
inductive Rca4Operands where
  /-- signals on the ports `A[3:0]` and `B[3:0]` (R100) -/
  | port (a b : NibbleSignals)
  /-- `RippleCarryAdder(a, b)` (R101) -/
  | integer (a b : Int)
  /-- the statement `site = RCA4(a, b)` (R71) -/
  | wired (site : NetName) (a b : Expr)
  deriving DecidableEq, Repr

/-- The operations: one constructor per row of spec/opcode_table.json. -/
inductive Instr where
  | ha (o : HaOperands)
  | fa (o : FaOperands)
  | rca4 (o : Rca4Operands)
  deriving DecidableEq, Repr

/-- The unit an operation evaluates. "The operation performed is the unit whose ports the host drives" (R64). -/
def Instr.unit : Instr → UnitName
  | .ha _ => .ha
  | .fa _ => .fa
  | .rca4 _ => .rca4

/-- An operation as it is given, before it is decoded. There is no opcode field (R64): each form names its unit. -/
inductive RawOp where
  /-- the packed input vector `IN` on the unit's ports, bit 0 first (R60) -/
  | driven (u : UnitName) (inBits : List Signal)
  /-- a call of the unit's integer-level name (R70) -/
  | call (u : UnitName) (args : List Int)
  /-- a statement of a netlist (R71) -/
  | wired (st : Stmt)
  deriving DecidableEq, Repr

/-- The first entry of an association list under a name. -/
def assoc {α : Type} : List (NetName × α) → NetName → Option α
  | [], _ => none
  | (m, x) :: rest, n => if m = n then some x else assoc rest n

end Sys2Proof
end

