-- ==== Sys2Proof/WellFormed.lean ====
section
/-! DEFINITION. Netlist well-formedness: the six named checks of spec/30_encoding.md R72, each a decidable function of
its own, over a context that grows statement by statement. An `Instr` needs no further check: its port operands are
typed by their widths (R68: "every input vector of every unit is legal"), an integer out of range is a fault and not an
ill-formed term (R121, R122), and a statement is checked with its netlist. -/

namespace Sys2Proof

/-- The named checks of R72, in its order. -/
inductive Check where
  | singleAssignment
  | definedBeforeUse
  | arity
  | width
  | indexRange
  | constantRange
  deriving DecidableEq, Repr

/-- All six, in the order of R72. -/
def Check.all : List Check :=
  [.singleAssignment, .definedBeforeUse, .arity, .width, .indexRange, .constantRange]

/-- What a name stands for: a declared input of some width, or an instance of a unit. -/
inductive NetType where
  | input (width : Nat)
  | inst (u : UnitName)
  deriving DecidableEq, Repr

/-- The declared inputs and the earlier instances, oldest first. -/
abbrev Ctx := List (NetName × NetType)

/-- The context after one more statement. -/
def Ctx.push (c : Ctx) (st : Stmt) : Ctx := c ++ [(st.name, .inst st.unit)]

/-- The context a netlist's first statement sees: its declared inputs. -/
def Netlist.ctx (n : Netlist) : Ctx := n.decls.map fun d => (d.name, .input d.width.bits)

/-- The number written by binary digits, most significant first (R13). -/
def binaryValue (digits : List Bool) : Nat := digits.foldl (fun v d => 2 * v + d.toNat) 0

mutual
/-- An expression's width; none where a name, an index or a slice has no meaning. "A concatenation's width is the sum of
its parts" (R71). -/
def Expr.widthIn (c : Ctx) : Expr → Option Nat
  | .name n =>
    match assoc c n with
    | some (.input w) => some w
    | some (.inst _) => none
    | none => none
  | .port n p =>
    match assoc c n with
    | some (.inst u) => some (u.outPortWidth p)
    | some (.input _) => none
    | none => none
  | .index e i =>
    match e.widthIn c with
    | some w => if i < w then some 1 else none
    | none => none
  | .slice e hi lo =>
    match e.widthIn c with
    | some w => if lo ≤ hi ∧ hi < w then some (hi - lo + 1) else none
    | none => none
  | .concat ps => ps.widthIn c
  | .const1 _ => some 1
  | .const4d _ => some Config.nibbleWidth
  | .const4b _ => some Config.nibbleWidth

/-- The sum of the widths of a concatenation's parts. -/
def Parts.widthIn (c : Ctx) : Parts → Option Nat
  | .one e => e.widthIn c
  | .more e rest =>
    match e.widthIn c, rest.widthIn c with
    | some w, some v => some (w + v)
    | some _, none => none
    | none, _ => none
end

mutual
/-- The expression refers only to declared inputs and to ports of earlier instances (R72 check 2).
DESIGN CHOICE (log 18): an instance's name without a port (`h`) and a port of a declared input (`x.S`) fail THIS check. R71
makes a bare NAME "a declared input" and NAME.PORT "an output port of an earlier instance", and R72 does not say which named
check refuses the other two. -/
def Expr.defined (c : Ctx) : Expr → Bool
  | .name n =>
    match assoc c n with
    | some (.input _) => true
    | some (.inst _) => false
    | none => false
  | .port n _ =>
    match assoc c n with
    | some (.inst _) => true
    | some (.input _) => false
    | none => false
  | .index e _ => e.defined c
  | .slice e _ _ => e.defined c
  | .concat ps => ps.defined c
  | .const1 _ => true
  | .const4d _ => true
  | .const4b _ => true

/-- Check 2 on every part. -/
def Parts.defined (c : Ctx) : Parts → Bool
  | .one e => e.defined c
  | .more e rest => e.defined c && rest.defined c
end

mutual
/-- Bit indices and slices lie inside their operand (R72 check 5). An operand without a width fails another check. -/
def Expr.indexed (c : Ctx) : Expr → Bool
  | .name _ => true
  | .port _ _ => true
  | .index e i =>
    e.indexed c &&
      match e.widthIn c with
      | some w => decide (i < w)
      | none => true
  | .slice e hi lo =>
    e.indexed c &&
      match e.widthIn c with
      | some w => decide (lo ≤ hi ∧ hi < w)
      | none => true
  | .concat ps => ps.indexed c
  | .const1 _ => true
  | .const4d _ => true
  | .const4b _ => true

/-- Check 5 on every part. -/
def Parts.indexed (c : Ctx) : Parts → Bool
  | .one e => e.indexed c
  | .more e rest => e.indexed c && rest.indexed c
end

mutual
/-- "A 1-bit constant is 0 or 1; a 4-bit constant is in 0..15" (R72 check 6). -/
def Expr.constants : Expr → Bool
  | .name _ => true
  | .port _ _ => true
  | .index e _ => e.constants
  | .slice e _ _ => e.constants
  | .concat ps => ps.constants
  | .const1 n => decide (n ≤ 1)
  | .const4d n => decide (n ≤ Config.maxNibble)
  | .const4b ds => decide (binaryValue ds ≤ Config.maxNibble)

/-- Check 6 on every part. -/
def Parts.constants : Parts → Bool
  | .one e => e.constants
  | .more e rest => e.constants && rest.constants
end

/-- The argument has the width its port needs (R72 check 4). An argument without a width fails another check. -/
def Expr.fits (c : Ctx) (w : Nat) (e : Expr) : Bool :=
  match e.widthIn c with
  | some v => decide (v = w)
  | none => true

/-- A check of one expression holds of every argument in the context its statement sees, and of every `out`
expression in the context after the last statement. -/
def everywhere (arg : Ctx → UnitName → Expr → Bool) (out : Ctx → Expr → Bool) :
    Ctx → List Stmt → List OutDecl → Bool
  | c, [], outs => outs.all fun o => out c o.expr
  | c, st :: rest, outs => st.args.all (arg c st.unit) && everywhere arg out (c.push st) rest outs

/-- Does the rest of a netlist, its statements and its outputs, pass a check in a context (R72)? "each NAME is defined
once" ranges over the inputs, the statements and the outputs. -/
def passes (c : Ctx) (stmts : List Stmt) (outs : List OutDecl) : Check → Bool
  | .singleAssignment =>
    decide (c.map Prod.fst ++ stmts.map Stmt.name ++ outs.map OutDecl.name).Nodup
  | .definedBeforeUse => everywhere (fun c _ => Expr.defined c) Expr.defined c stmts outs
  | .arity => stmts.all fun st => decide (st.args.length = st.unit.arity)
  | .width => everywhere (fun c u => Expr.fits c u.inPortWidth) (fun _ _ => true) c stmts outs
  | .indexRange => everywhere (fun c _ => Expr.indexed c) Expr.indexed c stmts outs
  | .constantRange => everywhere (fun _ _ => Expr.constants) (fun _ => Expr.constants) c stmts outs

/-- Every check that fails, in the order of R72. -/
def failedChecks (c : Ctx) (stmts : List Stmt) (outs : List OutDecl) : List Check :=
  Check.all.filter fun k => !passes c stmts outs k

/-- The checks a netlist fails. -/
def Netlist.failed (n : Netlist) : List Check := failedChecks n.ctx n.stmts n.outs

/-- A netlist that fails none of the named checks (R72). -/
abbrev Netlist.wellFormed (n : Netlist) : Prop := n.failed = []

/-- What the grammar asks of the lists: `decl ("," decl)*`, `stmt+`, `out+` and, in a statement,
`expr ("," expr)*` (R71). -/
def Netlist.inGrammar (n : Netlist) : Bool :=
  !n.decls.isEmpty && !n.stmts.isEmpty && !n.outs.isEmpty && n.stmts.all fun st => !st.args.isEmpty

/-! What claims say of the places in a netlist that the checks look at. -/

mutual
/-- An expression and all the expressions in it. -/
def subExprs : Expr → List Expr
  | .name n => [.name n]
  | .port n p => [.port n p]
  | .index e i => .index e i :: subExprs e
  | .slice e hi lo => .slice e hi lo :: subExprs e
  | .concat ps => .concat ps :: subParts ps
  | .const1 n => [.const1 n]
  | .const4d n => [.const4d n]
  | .const4b ds => [.const4b ds]

/-- The parts of a concatenation and all the expressions in them. -/
def subParts : Parts → List Expr
  | .one e => subExprs e
  | .more e rest => subExprs e ++ subParts rest
end

/-- The names a netlist defines: its declared inputs, its statements and its outputs. That R72 check 1 ranges over the
three together is the model's choice (log 8). -/
def Netlist.names (n : Netlist) : List NetName :=
  n.decls.map Decl.name ++ n.stmts.map Stmt.name ++ n.outs.map OutDecl.name

/-- The expression stands in the netlist after the statements `pre` and before all others: as an argument of the statement
that follows `pre`, or in an `out` line, which is evaluated last (R75). -/
def Netlist.places (n : Netlist) (pre : List Stmt) (e : Expr) : Prop :=
  (∃ st post, n.stmts = pre ++ st :: post ∧ e ∈ st.args) ∨ (pre = n.stmts ∧ ∃ o ∈ n.outs, e = o.expr)

/-- The context an expression that stands after the statements `pre` sees: the declared inputs and those instances. -/
def Netlist.ctxAfter (n : Netlist) (pre : List Stmt) : Ctx := n.ctx ++ pre.map fun st => (st.name, .inst st.unit)

end Sys2Proof
end

