-- ==== Sys2Proof/Decode.lean ====
section
/-! DEFINITION. Decoding an operation as it is given (a packed input vector, an integer-level call, a netlist statement)
into an `Instr`, total and rejecting by name, and the encoder after it (spec/30_encoding.md R60 to R70). -/

namespace Sys2Proof

/-- Why an operation is no operation of its unit. -/
inductive DecodeError where
  /-- the input vector has not the width of the unit's `IN` (R61, R62, R63) -/
  | inputWidth (u : UnitName) (given : Nat)
  /-- an integer-level call has not the unit's number of arguments (R70) -/
  | callArity (u : UnitName) (given : Nat)
  /-- a statement has not the unit's number of arguments (R72 check 3) -/
  | statementArity (site : NetName) (u : UnitName) (given : Nat)
  deriving DecidableEq, Repr

/-- The layouts of R61, R62 and R63: `IN = {A, B}` for HA and RCA4, `IN = {A, B, CI}` for FA; the list is bit 0 first. -/
def decodeDriven : UnitName → List Signal → Except DecodeError Instr
  | .ha, [b, a] => .ok (.ha (.port a b))
  | .fa, [ci, b, a] => .ok (.fa (.port a b ci))
  | .rca4, [b0, b1, b2, b3, a0, a1, a2, a3] => .ok (.rca4 (.port ⟨a3, a2, a1, a0⟩ ⟨b3, b2, b1, b0⟩))
  | u, bits => .error (.inputWidth u bits.length)

/-- "HalfAdder(a,b), FullAdder(a,b,cin), RippleCarryAdder(a,b)" (R70). -/
def decodeCall : UnitName → List Int → Except DecodeError Instr
  | .ha, [a, b] => .ok (.ha (.integer a b))
  | .fa, [a, b, cin] => .ok (.fa (.integer a b cin))
  | .rca4, [a, b] => .ok (.rca4 (.integer a b))
  | u, args => .error (.callArity u args.length)

/-- `stmt ::= NAME "=" unit "(" expr ("," expr)* ")"` with 2, 3 and 2 arguments (R71). -/
def decodeStatement (site : NetName) : UnitName → List Expr → Except DecodeError Instr
  | .ha, [a, b] => .ok (.ha (.wired site a b))
  | .fa, [a, b, ci] => .ok (.fa (.wired site a b ci))
  | .rca4, [a, b] => .ok (.rca4 (.wired site a b))
  | u, args => .error (.statementArity site u args.length)

/-- The decoder. -/
def decode : RawOp → Except DecodeError Instr
  | .driven u bits => decodeDriven u bits
  | .call u args => decodeCall u args
  | .wired st => decodeStatement st.name st.unit st.args

/-- The encoder, from the same layouts: bit `i` of `IN` is element `i`. -/
def encode : Instr → RawOp
  | .ha (.port a b) => .driven .ha [b, a]
  | .ha (.integer a b) => .call .ha [a, b]
  | .ha (.wired site a b) => .wired ⟨site, .ha, [a, b]⟩
  | .fa (.port a b ci) => .driven .fa [ci, b, a]
  | .fa (.integer a b cin) => .call .fa [a, b, cin]
  | .fa (.wired site a b ci) => .wired ⟨site, .fa, [a, b, ci]⟩
  | .rca4 (.port a b) => .driven .rca4 [b.b0, b.b1, b.b2, b.b3, a.b0, a.b1, a.b2, a.b3]
  | .rca4 (.integer a b) => .call .rca4 [a, b]
  | .rca4 (.wired site a b) => .wired ⟨site, .rca4, [a, b]⟩

/-- The signals of a word's bits, bit 0 first. A word that does not fit in `nbits` bits gives more signals than that, so
the decoder refuses it: no operand is truncated into range (R135). -/
def wordSignals (nbits w : Nat) : List Signal :=
  (List.range (max nbits (w.log2 + 1))).map fun i => .bit (BitVec.ofNat 1 (w >>> i))

/-- The unit whose `IN` has this many bits: "HA in 2 bits", "FA in 3 bits", "RCA4 in 8 bits" (R45). Each row has
`match = 0` and `mask = 0` (R64), so the bits of a word name no unit and only their number can. -/
def unitOfWidth : Nat → Option UnitName
  | 2 => some .ha
  | 3 => some .fa
  | 8 => some .rca4
  | _ => none

/-- The operation the decoder reads from an input vector of `nbits` bits. -/
def decodeTableWord (nbits w : Nat) : Option Instr :=
  match unitOfWidth nbits with
  | none => none
  | some u =>
    match decode (.driven u (wordSignals nbits w)) with
    | .ok i => some i
    | .error _ => none

/-- The number a packed vector of 0s and 1s stands for, bit 0 first; none where a bit is neither. -/
def packedValue : List Signal → Option Nat
  | [] => some 0
  | .bit b :: rest =>
    match packedValue rest with
    | some v => some (value b + 2 * v)
    | none => none
  | .undriven :: _ => none
  | .unknown :: _ => none
  | .contended :: _ => none

/-- The word of an operation whose ports carry 0 and 1 only: its `IN` as a number (R60). -/
def inWord (i : Instr) : Option Nat :=
  match encode i with
  | .driven _ bits => packedValue bits
  | .call _ _ => none
  | .wired _ => none

end Sys2Proof
end

