-- ==== Sys2Proof/Machine/State.lean ====
section
/-! DEFINITION. The machine's state. THE BLOCK HOLDS NONE: "A model of the block therefore has an empty state type"
(spec/10_state.md R20 to R25, R31, R32). What stands in `State` is the host's side of spec/60_exceptions.md R133, "the
only agent": the evaluations it asks for, the netlist evaluation it is in (R75) and the outputs it last read. No
unit's outputs depend on any of it (R27), which is a statement of this package and not a comment. -/

namespace Sys2Proof.Machine

/-- The output ports of HA and FA, and the result `(sum, carry)` of HalfAdder and FullAdder (R18, R67):
`sum` is `S`, `carry` is `CO`. -/
structure SumCarryPair where
  sum   : Bit
  carry : Bit
  deriving DecidableEq, Repr

/-- The output ports of RCA4 (R26). -/
structure Rca4Outputs where
  s  : Nibble
  co : Bit
  deriving DecidableEq, Repr

/-- The result of RippleCarryAdder: `bits` is "in descending significance order" (R43, R67). -/
structure AdditionResult where
  bits     : Vector Bit 4
  carryOut : Bit
  deriving DecidableEq, Repr

/-- `Ok(outputs)` of a unit: every output port, driven (R120). They are typed as bits: "Every port bit [...] holds 0 or
1 whenever the unit is evaluated without a fault" (R28). -/
inductive Outputs where
  | ha (o : SumCarryPair)
  | fa (o : SumCarryPair)
  | rca4 (o : Rca4Outputs)
  deriving DecidableEq, Repr

/-- What a name of a netlist is bound to: a declared input's signals, bit 0 first, or an instance's outputs (R75). -/
inductive Net where
  | input (signals : List Signal)
  | inst (o : Outputs)
  deriving DecidableEq, Repr

/-- What the host reads when an evaluation ends without a fault (R67, R75, R133). -/
inductive Result where
  | ports (o : Outputs)
  | sumCarry (u : UnitName) (r : SumCarryPair)
  | addition (r : AdditionResult)
  | netlist (outs : List (NetName × List Signal))
  deriving DecidableEq, Repr

/-- The fault record (R123). `values` is there at the integer level only, `site` in a netlist evaluation only. -/
structure FaultRecord where
  unit   : UnitName
  level  : Level
  ports  : List PortName
  values : Option (List Int)
  site   : Option NetName
  deriving DecidableEq, Repr

/-- The reasons an evaluation faults: one (R123). -/
inductive Fault where
  /-- Raised by HA, FA and RCA4 at both levels when an operand is outside its range or an input bit is neither 0 nor 1
  (R121, R122). Safe: it is the fault of the spec, with no output driven (R126). -/
  | preconditionViolation (r : FaultRecord)
  deriving DecidableEq, Repr

/-- The reasons a request is refused. -/
inductive Refusal where
  /-- An instruction not modelled yet, by its mnemonic. No arm answers it: safe. -/
  | notModelled (mnemonic : String)
  /-- Raised by `step` on a netlist that fails the named checks (R72: "A model refuses a netlist that fails any of
  these named checks"). Safe: the spec's own refusal. -/
  | illFormedNetlist (failed : List Check)
  /-- Raised by `step` on a netlist with no declaration, no statement or no output, or with a statement without
  arguments, which the grammar of R71 does not generate. Safe. -/
  | notInGrammar
  /-- Raised by `step` when the values driven on a netlist's inputs are not one per declared input, each of its width.
  Safe: the spec gives such a request no meaning. -/
  | inputsDoNotMatch
  /-- Raised by `step` on a vector or an argument list that is no operation of its unit (R61 to R63, R70). Safe. -/
  | undecodable (e : DecodeError)
  /-- Raised by a statement whose argument has no value of its port's width, and by an `out` expression with no value.
  No netlist that passes the checks of R72 raises it. Safe. -/
  | unresolved (name : NetName)
  /-- Raised by a statement whose name is bound already (R72 check 1). No netlist that passes the checks raises it.
  Safe. -/
  | alreadyDefined (name : NetName)
  /-- Raised by `step` on a request that names memory: "A request that names memory or an address has no meaning and is
  refused" (R40). Safe: the spec's own refusal. -/
  | noMemory (address : Nat)
  deriving DecidableEq, Repr

/-- What the host can ask for (R133, R70, R75), and the request R40 says is refused. -/
inductive Request where
  /-- drive a unit's input ports with the packed vector `IN`, bit 0 first, and read its outputs -/
  | drive (u : UnitName) (inBits : List Signal)
  /-- call a unit at the integer level -/
  | call (u : UnitName) (args : List Int)
  /-- evaluate a netlist, its inputs driven with these signals, in the order of its declarations, bit 0 first -/
  | netlist (n : Netlist) (inputs : List (List Signal))
  /-- a request that names an address -/
  | memory (address : Nat)
  deriving DecidableEq, Repr

/-- The host's side; the block itself holds nothing. -/
structure State where
  /-- the evaluations the host asks for, the next one first -/
  requests : List Request
  /-- the statements of the netlist evaluation in progress that are not evaluated yet -/
  todo     : List Stmt
  /-- the outputs of the netlist evaluation in progress; none when no netlist is in progress -/
  outs     : List OutDecl
  /-- the names bound so far in the netlist evaluation in progress, oldest first -/
  nets     : List (NetName × Net)
  /-- what the host read at the end of the last evaluation that ended without a fault -/
  result   : Option Result
  deriving DecidableEq, Repr

/-- After reset or power-up: "The state [...] is empty, so there is nothing to reset" (R32, R140). The host has asked for
nothing and read nothing. -/
def State.reset : State where
  requests := []
  todo := []
  outs := []
  nets := []
  result := none

end Sys2Proof.Machine
end

