-- ==== Sys2Proof/Machine/Flags.lean ====
section
/-! DEFINITION. Flags and carries. "Flags and condition codes: none are held" (spec/10_state.md R23): no zero, sign,
parity or signed-overflow flag exists and no operation writes one. What the block has are carries, which are output
ports; their logic is here. -/

namespace Sys2Proof.Machine

/-- HA's carry: `a AND b` (R80). -/
def haCarry (a b : Bit) : Bit := a &&& b

/-- FA's carry-out: `H1C OR H2C` (R90). -/
def faCarry (h1c h2c : Bit) : Bit := h1c ||| h2c

end Sys2Proof.Machine
end

