-- ==== Sys2Proof/Machine/Ops.lean ====
section
/-! DEFINITION. The named operations over the state: reading an evaluation's outputs, binding a netlist instance, and
taking the one exception the block has (spec/60_exceptions.md R120, R126, R127). There is no memory and no register to
operate on (R20, R40), and no return from a fault: "The block has no trap-return operation" (R127). -/

namespace Sys2Proof.Machine

/-- How an operation ends. -/
abbrev Ending := Host.Outcome State Fault Refusal

/-- The host reads the settled outputs of an evaluation, all together (R45, R133). -/
def State.read (s : State) (r : Result) : State := { s with result := some r }

/-- The outputs of an instance are "bound to names for later statements" (R75). -/
def State.bind (s : State) (site : NetName) (o : Outputs) : State :=
  { s with nets := s.nets ++ [(site, .inst o)] }

/-- Is the name bound already? -/
def State.binds (s : State) (n : NetName) : Bool := (assoc s.nets n).isSome

/-- Taking the exception: "the evaluation is abandoned at once. No output port is driven, no partial result [...] is
delivered, nothing is saved, and control goes nowhere" (R126). -/
def raise (r : FaultRecord) : Ending := .fault (.preconditionViolation r)

/-- The cause code of a fault (R123). -/
def Fault.code : Fault → Nat
  | .preconditionViolation _ => Config.preconditionViolationCode

/-- The two outcomes of R120: `Ok(outputs)` goes on with the outputs, `Fault` raises. -/
def settle {α : Type} (e : Except FaultRecord α) (k : α → State) : Ending :=
  match e with
  | .ok x => .next (k x)
  | .error r => raise r

/-- A statement's instance: its outputs are bound to its name, once (R72 check 1, R75). -/
def instantiate (site : NetName) (e : Except FaultRecord Outputs) (s : State) : Ending :=
  if s.binds site then .refused (.alreadyDefined site) else settle e fun o => s.bind site o

/-- The output port of an instance, as signals, bit 0 first (R26, R42). -/
def Outputs.signals : Outputs → OutPort → List Signal
  | .ha o, .s => [.bit o.sum]
  | .ha o, .co => [.bit o.carry]
  | .fa o, .s => [.bit o.sum]
  | .fa o, .co => [.bit o.carry]
  | .rca4 o, .s =>
    [.bit (o.s.extractLsb' 0 1), .bit (o.s.extractLsb' 1 1), .bit (o.s.extractLsb' 2 1), .bit (o.s.extractLsb' 3 1)]
  | .rca4 o, .co => [.bit o.co]

/-- The unit whose outputs these are. -/
def Outputs.unit : Outputs → UnitName
  | .ha _ => .ha
  | .fa _ => .fa
  | .rca4 _ => .rca4

/-- The packed vector `OUT = {CO, S}` of HA and FA (R61, R62). -/
def SumCarryPair.out (o : SumCarryPair) : BitVec 2 := o.carry ++ o.sum

/-- The packed vector `OUT = {CO, S}` of RCA4 (R63). -/
def Rca4Outputs.out (o : Rca4Outputs) : BitVec 5 := o.co ++ o.s

/-- `value(OUT)`: the packed output vector as a number (R60). -/
def Outputs.outValue : Outputs → Nat
  | .ha o => value o.out
  | .fa o => value o.out
  | .rca4 o => value o.out

/-- `bits = [S[3], S[2], S[1], S[0]]`, most significant first (R43, R67). -/
def Rca4Outputs.addition (o : Rca4Outputs) : AdditionResult where
  bits := #v[o.s.extractLsb' 3 1, o.s.extractLsb' 2 1, o.s.extractLsb' 1 1, o.s.extractLsb' 0 1]
  carryOut := o.co

/-- `value(bits)` of an AdditionResult: it "weighs `bits[0]` as `2^3`" (R102). -/
def AdditionResult.bitsValue (r : AdditionResult) : Nat :=
  8 * value r.bits[0] + 4 * value r.bits[1] + 2 * value r.bits[2] + value r.bits[3]

end Sys2Proof.Machine
end

