-- ==== Sys2Proof/Machine/Operands.lean ====
section
/-! DEFINITION. Every operand form: a signal or four on a port (spec/60_exceptions.md R121), an integer checked against
its range (R121, R122, spec/30_encoding.md R66), a netlist expression (R71, R75); and the records of the operands that
offend (R123, R125). No operand is ever clamped, masked or truncated into range (R135). -/

namespace Sys2Proof.Machine

/-- The bit a signal carries; none where it is neither 0 nor 1 (R121). -/
def signalBit : Signal → Option Bit
  | .bit b => some b
  | .undriven => none
  | .unknown => none
  | .contended => none

/-- Four bits as a vector, the first the most significant (R13). -/
def nibbleOf (b3 b2 b1 b0 : Bit) : Nibble := b3 ++ b2 ++ b1 ++ b0

/-- Bit `i` of a nibble: `v[i]` (R12). -/
def nibbleBit (v : Nibble) (i : Nat) : Bit := v.extractLsb' i 1

/-- The nibble on a four-bit port; none where some bit is neither 0 nor 1 (R121). -/
def signalNibble (p : NibbleSignals) : Option Nibble :=
  match signalBit p.b3, signalBit p.b2, signalBit p.b1, signalBit p.b0 with
  | some b3, some b2, some b1, some b0 => some (nibbleOf b3 b2 b1 b0)
  | _, _, _, _ => none

/-- An integer as a bit; none where it is "an integer other than 0 or 1. [...] Negative integers count" (R121). -/
def integerBit (v : Int) : Option Bit :=
  if v = 0 then some 0 else if v = 1 then some 1 else none

/-- Shift-and-mask: `(v >> i) AND 1` (R66). -/
def shiftAndMask (v : Nat) (i : Nat) : Bit := BitVec.ofNat 1 ((v >>> i) &&& 1)

/-- An integer as a nibble: first the check `0 <= v <= 15`, then its bits "via shift-and-mask" (R66, R122). -/
def integerNibble (v : Int) : Option Nibble :=
  if 0 ≤ v ∧ v ≤ (Config.maxNibble : Int) then
    some (nibbleOf (shiftAndMask v.toNat 3) (shiftAndMask v.toNat 2) (shiftAndMask v.toNat 1) (shiftAndMask v.toNat 0))
  else none

/-- "`ports` list names every offending operand, in port order" (R125), at the port level: no values. The operands come
as their ports with whether each offends, in port order. -/
def portFault (u : UnitName) (site : Option NetName) (operands : List (PortName × Bool)) : FaultRecord where
  unit := u
  level := .port
  ports := (operands.filter fun p => p.2).map Prod.fst
  values := none
  site := site

/-- The record at the integer level: the offending ports and "the offending arguments" (R123, R125). -/
def integerFault (u : UnitName) (operands : List (PortName × Int × Bool)) : FaultRecord where
  unit := u
  level := .integer
  ports := (operands.filter fun p => p.2.2).map Prod.fst
  values := some ((operands.filter fun p => p.2.2).map fun p => p.2.1)
  site := none

/-- The signals of a number's low bits, bit 0 first. -/
def numberSignals (width n : Nat) : List Signal :=
  (List.range width).map fun i => .bit (BitVec.ofNat 1 (n >>> i))

mutual
/-- The value of an expression, bit 0 first; none where a name is not bound, an index or a slice lies outside its operand
or a constant is out of range (R71, R72, R75). A signal that is neither 0 nor 1 passes through a wire as it is. -/
def evalExpr (nets : List (NetName × Net)) : Expr → Option (List Signal)
  | .name n =>
    match assoc nets n with
    | some (.input v) => some v
    | some (.inst _) => none
    | none => none
  | .port n p =>
    match assoc nets n with
    | some (.inst o) => some (o.signals p)
    | some (.input _) => none
    | none => none
  | .index e i =>
    match evalExpr nets e with
    | some v =>
      match v[i]? with
      | some x => some [x]
      | none => none
    | none => none
  | .slice e hi lo =>
    match evalExpr nets e with
    | some v => if lo ≤ hi ∧ hi < v.length then some ((v.drop lo).take (hi - lo + 1)) else none
    | none => none
  | .concat ps => evalParts nets ps
  | .const1 n => if n ≤ 1 then some (numberSignals 1 n) else none
  | .const4d n => if n ≤ Config.maxNibble then some (numberSignals Config.nibbleWidth n) else none
  | .const4b ds =>
    if binaryValue ds ≤ Config.maxNibble then some (numberSignals Config.nibbleWidth (binaryValue ds)) else none

/-- The value of a concatenation: the first part is the most significant (R13). -/
def evalParts (nets : List (NetName × Net)) : Parts → Option (List Signal)
  | .one e => evalExpr nets e
  | .more e rest =>
    match evalExpr nets e, evalParts nets rest with
    | some v, some low => some (low ++ v)
    | some _, none => none
    | none, _ => none
end

/-- An argument of a one-bit port (R71: "HA and FA arguments are 1 bit wide"). -/
def resolveBit (nets : List (NetName × Net)) (e : Expr) : Option Signal :=
  match evalExpr nets e with
  | some [x] => some x
  | _ => none

/-- An argument of a four-bit port (R71: "RCA4 arguments are 4 bits wide"). -/
def resolveNibble (nets : List (NetName × Net)) (e : Expr) : Option NibbleSignals :=
  match evalExpr nets e with
  | some [b0, b1, b2, b3] => some ⟨b3, b2, b1, b0⟩
  | _ => none

end Sys2Proof.Machine
end

