-- ==== Sys2Proof/Machine/HalfAdder.lean ====
section
/-! DEFINITION. The half adder at its two levels and in a netlist (spec/40_half_adder.md R80, R81). -/

namespace Sys2Proof.Machine

/-- `out.S <- in.A XOR in.B`, `out.CO <- in.A AND in.B` (R80). -/
def halfAdd (a b : Bit) : SumCarryPair where
  sum := a ^^^ b
  carry := haCarry a b

/-- HA on the signals of its ports, alone or at a netlist's statement `site` (R80). -/
def haPort (site : Option NetName) (a b : Signal) : Except FaultRecord Outputs :=
  match signalBit a, signalBit b with
  | some x, some y => .ok (.ha (halfAdd x y))
  | x, y => .error (portFault .ha site [(.a, x.isNone), (.b, y.isNone)])

/-- `HalfAdder(a, b)` (R81). -/
def haInteger (a b : Int) : Except FaultRecord SumCarryPair :=
  match integerBit a, integerBit b with
  | some x, some y => .ok (halfAdd x y)
  | x, y => .error (integerFault .ha [(.a, a, x.isNone), (.b, b, y.isNone)])

/-- The meaning of HA. -/
def execHa (o : HaOperands) (s : State) : Ending :=
  match o with
  | .port a b => settle (haPort none a b) fun r => s.read (.ports r)
  | .integer a b => settle (haInteger a b) fun r => s.read (.sumCarry .ha r)
  | .wired site a b =>
    match resolveBit s.nets a, resolveBit s.nets b with
    | some x, some y => instantiate site (haPort (some site) x y) s
    | _, _ => .refused (.unresolved site)

end Sys2Proof.Machine
end

