-- ==== Sys2Proof/Machine/FullAdder.lean ====
section
/-! DEFINITION. The full adder at its two levels and in a netlist (spec/41_full_adder.md R90, R91): two half adders and
an OR, with the internal nets of spec/10_state.md R29. -/

namespace Sys2Proof.Machine

/-- `h1 = HA(A, B)`: its `S` is the net `H1S`, its `CO` the net `H1C` (R29). -/
def faH1 (a b : Bit) : SumCarryPair := halfAdd a b

/-- `h2 = HA(H1S, CI)`: its `S` is the net `H2S`, its `CO` the net `H2C` (R29). -/
def faH2 (a b ci : Bit) : SumCarryPair := halfAdd (faH1 a b).sum ci

/-- `out.S <- H2S`, `out.CO <- H1C OR H2C` (R90). -/
def fullAdd (a b ci : Bit) : SumCarryPair where
  sum := (faH2 a b ci).sum
  carry := faCarry (faH1 a b).carry (faH2 a b ci).carry

/-- FA on the signals of its ports, alone or at a netlist's statement `site` (R90). "The check is written once, at the
top, for every input." -/
def faPort (site : Option NetName) (a b ci : Signal) : Except FaultRecord Outputs :=
  match signalBit a, signalBit b, signalBit ci with
  | some x, some y, some z => .ok (.fa (fullAdd x y z))
  | x, y, z => .error (portFault .fa site [(.a, x.isNone), (.b, y.isNone), (.ci, z.isNone)])

/-- `FullAdder(a, b, cin)` (R91). -/
def faInteger (a b cin : Int) : Except FaultRecord SumCarryPair :=
  match integerBit a, integerBit b, integerBit cin with
  | some x, some y, some z => .ok (fullAdd x y z)
  | x, y, z => .error (integerFault .fa [(.a, a, x.isNone), (.b, b, y.isNone), (.ci, cin, z.isNone)])

/-- The meaning of FA. -/
def execFa (o : FaOperands) (s : State) : Ending :=
  match o with
  | .port a b ci => settle (faPort none a b ci) fun r => s.read (.ports r)
  | .integer a b cin => settle (faInteger a b cin) fun r => s.read (.sumCarry .fa r)
  | .wired site a b ci =>
    match resolveBit s.nets a, resolveBit s.nets b, resolveBit s.nets ci with
    | some x, some y, some z => instantiate site (faPort (some site) x y z) s
    | _, _, _ => .refused (.unresolved site)

end Sys2Proof.Machine
end

