-- ==== Sys2Proof/Machine/RippleCarryAdder.lean ====
section
/-! DEFINITION. The 4-bit ripple-carry adder at its two levels and in a netlist (spec/42_ripple_carry_adder.md R100,
R101): four full-adder stages, with the carry chain of spec/10_state.md R30. -/

namespace Sys2Proof.Machine

/-- The carry net `C_i`: `C0` is the constant 0, `C(i+1)` is the `CO` of stage `i` (R30). -/
def carryNet (a b : Nibble) : Nat → Bit
  | 0 => Config.stageZeroCarryIn
  | i + 1 => (fullAdd (nibbleBit a i) (nibbleBit b i) (carryNet a b i)).carry

/-- Stage `i`: `FA(in.A[i], in.B[i], C_i)` (R100). -/
def stage (a b : Nibble) (i : Nat) : SumCarryPair :=
  fullAdd (nibbleBit a i) (nibbleBit b i) (carryNet a b i)

/-- `out.S[i] <- st.S` for each stage, `out.CO <- C4` (R100). -/
def rippleAdd (a b : Nibble) : Rca4Outputs where
  s := nibbleOf (stage a b 3).sum (stage a b 2).sum (stage a b 1).sum (stage a b 0).sum
  co := carryNet a b Config.nibbleWidth

/-- RCA4 on the signals of its ports, alone or at a netlist's statement `site` (R100). -/
def rca4Port (site : Option NetName) (a b : NibbleSignals) : Except FaultRecord Outputs :=
  match signalNibble a, signalNibble b with
  | some x, some y => .ok (.rca4 (rippleAdd x y))
  | x, y => .error (portFault .rca4 site [(.a, x.isNone), (.b, y.isNone)])

/-- `RippleCarryAdder(a, b)` (R101). -/
def rca4Integer (a b : Int) : Except FaultRecord AdditionResult :=
  match integerNibble a, integerNibble b with
  | some x, some y => .ok (rippleAdd x y).addition
  | x, y => .error (integerFault .rca4 [(.a, a, x.isNone), (.b, b, y.isNone)])

/-- The meaning of RCA4. -/
def execRca4 (o : Rca4Operands) (s : State) : Ending :=
  match o with
  | .port a b => settle (rca4Port none a b) fun r => s.read (.ports r)
  | .integer a b => settle (rca4Integer a b) fun r => s.read (.addition r)
  | .wired site a b =>
    match resolveNibble s.nets a, resolveNibble s.nets b with
    | some x, some y => instantiate site (rca4Port (some site) x y) s
    | _, _ => .refused (.unresolved site)

end Sys2Proof.Machine
end

