-- ==== Sys2Proof/Machine/Dispatch.lean ====
section
/-! DEFINITION. One arm per constructor of `Instr`. -/

namespace Sys2Proof.Machine

def exec (i : Instr) (s : State) : Host.Outcome State Fault Refusal :=
  match i with
  | .ha o => Sys2Proof.Machine.execHa o s
  | .fa o => Sys2Proof.Machine.execFa o s
  | .rca4 o => Sys2Proof.Machine.execRca4 o s

end Sys2Proof.Machine
end

