-- ==== Sys2Proof/Machine/Netlist.lean ====
section
/-! DEFINITION. Netlist evaluation (spec/30_encoding.md R72, R75): what the machine does at its start and at its end, and,
beside the machine, the evaluation of a whole netlist as ONE function, written from R75, that the machine's steps are
held to. -/

namespace Sys2Proof.Machine

/-- Are the driven values one per declaration, each of its width? -/
def inputsMatch (n : Netlist) (inputs : List (List Signal)) : Bool :=
  decide (inputs.map List.length = n.decls.map fun d => d.width.bits)

/-- The declared inputs bound to the signals driven on them. -/
def inputNets (n : Netlist) (inputs : List (List Signal)) : List (NetName × Net) :=
  (n.decls.zip inputs).map fun p => (p.1.name, .input p.2)

/-- Why a netlist is not evaluated at all, if there is a reason (R71, R72). -/
def netlistRefusal (n : Netlist) (inputs : List (List Signal)) : Option Refusal :=
  if n.inGrammar = false then some .notInGrammar
  else if n.failed ≠ [] then some (.illFormedNetlist n.failed)
  else if inputsMatch n inputs = false then some .inputsDoNotMatch
  else none

/-- The start of a netlist evaluation. -/
def startNetlist (n : Netlist) (inputs : List (List Signal)) (s : State) : Ending :=
  match netlistRefusal n inputs with
  | some r => .refused r
  | none => .next { s with todo := n.stmts, outs := n.outs, nets := inputNets n inputs }

/-- The values of the `out` expressions; `.error` names the first that has none. -/
def evalOuts (nets : List (NetName × Net)) : List OutDecl → Except NetName (List (NetName × List Signal))
  | [] => .ok []
  | o :: rest =>
    match evalExpr nets o.expr with
    | none => .error o.name
    | some v =>
      match evalOuts nets rest with
      | .ok vs => .ok ((o.name, v) :: vs)
      | .error n => .error n

/-- The end of a netlist evaluation: "each `out` expression is evaluated last" (R75). Nothing of it stays bound: "No value
survives from one evaluation to the next" (R20). -/
def finishNetlist (s : State) : Ending :=
  match evalOuts s.nets s.outs with
  | .ok vs => .next { s with outs := [], nets := [], result := some (.netlist vs) }
  | .error n => .refused (.unresolved n)

/-- How a part of a netlist evaluation ends: with a value, with the fault of R75, or refused. -/
abbrev Evaluation (α : Type) := Host.Outcome α Fault Refusal

/-- A unit's function on its argument values, at a statement (R75: "evaluating each statement's unit on its argument
values"). Arguments of another number or width have no value. -/
def unitAt (site : NetName) : UnitName → List (List Signal) → Option (Except FaultRecord Outputs)
  | .ha, [[a], [b]] => some (haPort (some site) a b)
  | .fa, [[a], [b], [ci]] => some (faPort (some site) a b ci)
  | .rca4, [[a0, a1, a2, a3], [b0, b1, b2, b3]] => some (rca4Port (some site) ⟨a3, a2, a1, a0⟩ ⟨b3, b2, b1, b0⟩)
  | _, _ => none

/-- One statement on the names bound so far. -/
def evalStmt (nets : List (NetName × Net)) (st : Stmt) : Evaluation Outputs :=
  match st.args.mapM (evalExpr nets) with
  | none => .refused (.unresolved st.name)
  | some vs =>
    match unitAt st.name st.unit vs with
    | none => .refused (.unresolved st.name)
    | some (.error r) => .fault (.preconditionViolation r)
    | some (.ok o) => .next o

/-- The statements in order, each bound for the later ones; "If any instance raises `PreconditionViolation`, the whole
netlist evaluation ends in that fault" (R75). -/
def evalStmts (nets : List (NetName × Net)) : List Stmt → Evaluation (List (NetName × Net))
  | [] => .next nets
  | st :: rest =>
    match evalStmt nets st with
    | .next o => evalStmts (nets ++ [(st.name, .inst o)]) rest
    | .fault f => .fault f
    | .refused r => .refused r

/-- A whole netlist on the values driven on its inputs (R75). -/
def evalNetlist (n : Netlist) (inputs : List (List Signal)) : Evaluation (List (NetName × List Signal)) :=
  match netlistRefusal n inputs with
  | some r => .refused r
  | none =>
    match evalStmts (inputNets n inputs) n.stmts with
    | .fault f => .fault f
    | .refused r => .refused r
    | .next nets =>
      match evalOuts nets n.outs with
      | .ok vs => .next vs
      | .error name => .refused (.unresolved name)

end Sys2Proof.Machine
end

