-- ==== Sys2Proof/Machine/Fetch.lean ====
section
/-! DEFINITION. What the next step is. "The block does not fetch or sequence anything" (spec/10_state.md R22): the host
chooses what is evaluated (R64, R133), and a netlist's statements follow in order (R75). -/

namespace Sys2Proof.Machine

/-- What a step does, with the state it does it in. -/
inductive Action where
  /-- no evaluation is asked for -/
  | idle
  /-- evaluate one unit -/
  | evaluate (raw : RawOp) (s : State)
  /-- start a netlist evaluation -/
  | start (n : Netlist) (inputs : List (List Signal)) (s : State)
  /-- evaluate the `out` expressions of the netlist in progress -/
  | finish
  /-- a request that names memory (R40) -/
  | memory (address : Nat)
  deriving DecidableEq, Repr

/-- The host's next request, when no netlist evaluation is in progress. -/
def nextRequest (s : State) : Action :=
  match s.requests with
  | [] => .idle
  | .drive u bits :: rest => .evaluate (.driven u bits) { s with requests := rest }
  | .call u args :: rest => .evaluate (.call u args) { s with requests := rest }
  | .netlist n inputs :: rest => .start n inputs { s with requests := rest }
  | .memory address :: _ => .memory address

/-- The request that stands for a table word: the unit whose `IN` has `nbits` bits is driven with it.
DESIGN CHOICE (log 3, log 5): by R64 no bit of a word selects a unit, and the spec does not say what a word is whose width no
unit has. It is refused, whatever the word: RCA4 is driven with a vector of no bits, which its decoder rejects. -/
def fetchRequest (nbits w : Nat) : Request :=
  match unitOfWidth nbits with
  | some u => .drive u (wordSignals nbits w)
  | none => .drive .rca4 []

/-- The next action: the next statement of the netlist in progress, its outputs when no statement is left, the host's next
request when no netlist is in progress. -/
def nextAction (s : State) : Action :=
  match s.todo, s.outs with
  | st :: rest, _ => .evaluate (.wired st) { s with todo := rest }
  | [], _ :: _ => .finish
  | [], [] => nextRequest s

end Sys2Proof.Machine
end

