-- ==== Sys2Proof/Machine/Step.lean ====
section
/-! DEFINITION. One step: one evaluation the host asks for. -/

namespace Sys2Proof.Machine

/-- Evaluate one operation as it is given: the decoder's operation, or its rejection by name. -/
def runOp (raw : RawOp) (s : State) : Host.Outcome State Fault Refusal :=
  match decode raw with
  | .ok i => exec i s
  | .error e => .refused (.undecodable e)

/-- One step. With no evaluation asked for, nothing is evaluated and nothing changes: the block "takes no step" of its
own (R11).
DESIGN CHOICE (log 17): an evaluation that faults, and a request that is refused, END THE RUN: the outcome carries no state,
so what stands behind it in `requests` is not evaluated. The spec makes a fault one evaluation's own (R126) and the others
independent (R49, R134), and does not say what the host does next; it may ask for the rest in a state of its own. -/
def step (s : State) : Host.Outcome State Fault Refusal :=
  match nextAction s with
  | .idle => .next s
  | .evaluate raw t => runOp raw t
  | .start n inputs t => startNetlist n inputs t
  | .finish => finishNetlist s
  | .memory address => .refused (.noMemory address)

/-- The state in which the host drives the unit whose `IN` has `nbits` bits with the word `w`, as the very next
evaluation: that request stands first, and a netlist evaluation in progress, which would come before it, is dropped
(log 3). A word that is no operation (log 5) is refused by the step: `fetchRequest`. -/
def State.withFetchWord (s : State) (nbits w : Nat) : State :=
  { s with
    requests := fetchRequest nbits w :: s.requests
    todo := []
    outs := []
    nets := [] }

end Sys2Proof.Machine
end

