-- ==== Sys2Proof/Machine/Notation.lean ====
section
/-! DEFINITION. The netlist notation as text (spec/30_encoding.md R71): writing a netlist as the grammar's words and reading
it back. The words are the grammar's own; how a word is spelled in characters (what letters a NAME has, where blanks may
stand) the spec does not say. -/

namespace Sys2Proof.Machine

/-- The grammar's marks. -/
inductive Mark where
  | lparen | rparen | comma | colon | newline | equals | dot | lbracket | rbracket | lbrace | rbrace
  deriving DecidableEq, Repr

/-- The grammar's words. -/
inductive Token where
  | netlistKw
  | outKw
  | name (n : NetName)
  | unit (u : UnitName)
  | port (p : OutPort)
  | number (n : Nat)
  /-- `4'd` DIGITS -/
  | decimal4 (n : Nat)
  /-- `4'b` BITS -/
  | binary4 (digits : List Bool)
  | mark (m : Mark)
  deriving DecidableEq, Repr

mutual
/-- An `expr` as words. -/
def writeExpr : Expr → List Token
  | .name n => [.name n]
  | .port n p => [.name n, .mark .dot, .port p]
  | .index e i => writeExpr e ++ [.mark .lbracket, .number i, .mark .rbracket]
  | .slice e hi lo =>
    writeExpr e ++ [.mark .lbracket, .number hi, .mark .colon, .number lo, .mark .rbracket]
  | .concat ps => .mark .lbrace :: writeParts ps
  | .const1 n => [.number n]
  | .const4d n => [.decimal4 n]
  | .const4b ds => [.binary4 ds]

/-- The parts of a concatenation and its closing brace. -/
def writeParts : Parts → List Token
  | .one e => writeExpr e ++ [.mark .rbrace]
  | .more e rest => writeExpr e ++ .mark .comma :: writeParts rest
end

/-- Arguments and their closing parenthesis. -/
def writeArgs : List Expr → List Token
  | [] => [.mark .rparen]
  | [e] => writeExpr e ++ [.mark .rparen]
  | e :: rest => writeExpr e ++ .mark .comma :: writeArgs rest

/-- A `stmt`. -/
def writeStmt (st : Stmt) : List Token :=
  [.name st.name, .mark .equals, .unit st.unit, .mark .lparen] ++ writeArgs st.args

/-- An `out`. -/
def writeOut (o : OutDecl) : List Token :=
  [.outKw, .name o.name, .mark .equals] ++ writeExpr o.expr

/-- The declarations and their closing parenthesis. -/
def writeDecls : List Decl → List Token
  | [] => [.mark .rparen]
  | [d] => [.name d.name, .mark .colon, .number d.width.bits, .mark .rparen]
  | d :: rest => [.name d.name, .mark .colon, .number d.width.bits, .mark .comma] ++ writeDecls rest

/-- A `netlist`. -/
def writeNetlist (n : Netlist) : List Token :=
  [.netlistKw, .name n.name, .mark .lparen] ++ writeDecls n.decls ++ [.mark .colon, .mark .newline] ++
    n.stmts.flatMap writeStmt ++ n.outs.flatMap writeOut

/-- The brackets that follow an expression, as many as there are. -/
def readSuffix (e : Expr) : List Token → Expr × List Token
  | .mark .lbracket :: .number i :: .mark .rbracket :: rest => readSuffix (.index e i) rest
  | .mark .lbracket :: .number hi :: .mark .colon :: .number lo :: .mark .rbracket :: rest =>
    readSuffix (.slice e hi lo) rest
  | rest => (e, rest)

mutual
/-- An `expr` and what follows it; `fuel` bounds how deep its braces go and how many parts they hold. -/
def readExpr (fuel : Nat) (ts : List Token) : Option (Expr × List Token) :=
  match fuel with
  | 0 => none
  | fuel + 1 =>
    match ts with
    | .name n :: .mark .dot :: .port p :: rest => some (readSuffix (.port n p) rest)
    | .name n :: rest => some (readSuffix (.name n) rest)
    | .number n :: rest => some (readSuffix (.const1 n) rest)
    | .decimal4 n :: rest => some (readSuffix (.const4d n) rest)
    | .binary4 ds :: rest => some (readSuffix (.const4b ds) rest)
    | .mark .lbrace :: rest =>
      match readParts fuel rest with
      | some (ps, rest) => some (readSuffix (.concat ps) rest)
      | none => none
    | _ => none

/-- The parts of a concatenation, to its closing brace. -/
def readParts (fuel : Nat) (ts : List Token) : Option (Parts × List Token) :=
  match fuel with
  | 0 => none
  | fuel + 1 =>
    match readExpr fuel ts with
    | some (e, .mark .rbrace :: rest) => some (.one e, rest)
    | some (e, .mark .comma :: rest) =>
      match readParts fuel rest with
      | some (ps, rest) => some (.more e ps, rest)
      | none => none
    | _ => none
end

/-- The arguments of a unit, one or more, to the closing parenthesis. -/
def readArgs (fuel : Nat) (ts : List Token) : Option (List Expr × List Token) :=
  match fuel with
  | 0 => none
  | fuel + 1 =>
    match readExpr (fuel + 1) ts with
    | some (e, .mark .rparen :: rest) => some ([e], rest)
    | some (e, .mark .comma :: rest) =>
      match readArgs fuel rest with
      | some (es, rest) => some (e :: es, rest)
      | none => none
    | _ => none

/-- The WIDTH a number stands for (R71). -/
def readWidth : Nat → Option Width
  | 1 => some .one
  | 4 => some .four
  | _ => none

/-- The declarations, one or more, to the closing parenthesis. -/
def readDecls : List Token → Option (List Decl × List Token)
  | .name n :: .mark .colon :: .number w :: .mark .rparen :: rest =>
    match readWidth w with
    | some w => some ([⟨n, w⟩], rest)
    | none => none
  | .name n :: .mark .colon :: .number w :: .mark .comma :: rest =>
    match readWidth w, readDecls rest with
    | some w, some (ds, rest) => some (⟨n, w⟩ :: ds, rest)
    | _, _ => none
  | _ => none

/-- The outputs, to the end of the text. -/
def readOuts (fuel : Nat) (ts : List Token) : Option (List OutDecl) :=
  match fuel with
  | 0 => none
  | fuel + 1 =>
    match ts with
    | [] => some []
    | .outKw :: .name n :: .mark .equals :: rest =>
      match readExpr (fuel + 1) rest with
      | some (e, rest) =>
        match readOuts fuel rest with
        | some os => some (⟨n, e⟩ :: os)
        | none => none
      | none => none
    | _ => none

/-- The statements, and then the outputs. -/
def readBody (fuel : Nat) (ts : List Token) : Option (List Stmt × List OutDecl) :=
  match fuel with
  | 0 => none
  | fuel + 1 =>
    match ts with
    | .name n :: .mark .equals :: .unit u :: .mark .lparen :: rest =>
      match readArgs (fuel + 1) rest with
      | some (args, rest) =>
        match readBody fuel rest with
        | some (ss, os) => some (⟨n, u, args⟩ :: ss, os)
        | none => none
      | none => none
    | ts =>
      match readOuts (fuel + 1) ts with
      | some os => some ([], os)
      | none => none

/-- A `netlist` from its words; none where the words are no netlist of the grammar. -/
def readNetlist (ts : List Token) : Option Netlist :=
  match ts with
  | .netlistKw :: .name n :: .mark .lparen :: rest =>
    match readDecls rest with
    | some (ds, .mark .colon :: .mark .newline :: rest) =>
      match readBody (ts.length + 1) rest with
      | some (ss, os) =>
        let net : Netlist := ⟨n, ds, ss, os⟩
        if net.inGrammar then some net else none
      | none => none
    | _ => none
  | _ => none

end Sys2Proof.Machine
end

