-- ==== Sys2Proof/Safety.lean ====
section
/-! DEFINITION. What claims say of a state or an evaluation: driven inputs, the operands that offend, a netlist
evaluation in progress, and the invariant that every step keeps. -/

namespace Sys2Proof.Machine

/-- The signal carries 0 or 1 (R121). -/
def binarySignal (x : Signal) : Bool := (signalBit x).isSome

/-- Every bit of the port carries 0 or 1 (R121). -/
def binaryNibble (p : NibbleSignals) : Bool :=
  binarySignal p.b3 && binarySignal p.b2 && binarySignal p.b1 && binarySignal p.b0

/-- Every port bit an evaluation is given directly carries 0 or 1, or every integer lies in its range: the host's duty
(R133) and the source's precondition (R18). A statement's arguments are checked when it is evaluated. -/
def inRange : Instr → Bool
  | .ha (.port a b) => binarySignal a && binarySignal b
  | .ha (.integer a b) => decide ((a = 0 ∨ a = 1) ∧ (b = 0 ∨ b = 1))
  | .ha (.wired _ _ _) => false
  | .fa (.port a b ci) => binarySignal a && binarySignal b && binarySignal ci
  | .fa (.integer a b cin) => decide ((a = 0 ∨ a = 1) ∧ (b = 0 ∨ b = 1) ∧ (cin = 0 ∨ cin = 1))
  | .fa (.wired _ _ _ _) => false
  | .rca4 (.port a b) => binaryNibble a && binaryNibble b
  | .rca4 (.integer a b) => decide ((0 ≤ a ∧ a ≤ 15) ∧ (0 ≤ b ∧ b ≤ 15))
  | .rca4 (.wired _ _ _) => false

/-- The four signals of a nibble driven with 0 and 1 only. -/
def driveNibble (v : Nibble) : NibbleSignals :=
  ⟨.bit (nibbleBit v 3), .bit (nibbleBit v 2), .bit (nibbleBit v 1), .bit (nibbleBit v 0)⟩

/-- A netlist evaluation is in progress. -/
def State.running (s : State) : Prop := s.todo ≠ [] ∨ s.outs ≠ []

/-- What a bound name stands for, to the checks of R72. -/
def netType : Net → NetType
  | .input v => .input v.length
  | .inst o => .inst o.unit

/-- What each bound name stands for. -/
def netTypes (nets : List (NetName × Net)) : Ctx := nets.map fun p => (p.1, netType p.2)

/-- Every declared input bound carries 0 and 1 only. -/
def netsBinary (nets : List (NetName × Net)) : Prop :=
  ∀ n v, (n, Net.input v) ∈ nets → ∀ x ∈ v, binarySignal x = true

/-- The invariant of a state. What is left of the netlist in progress passes all six checks of R72 on the names bound so
far (so each name is bound once and every reference is bound before its use), and with no netlist in progress nothing is
bound: "No value survives from one evaluation to the next" (R20). -/
def State.Inv (s : State) : Prop :=
  failedChecks (netTypes s.nets) s.todo s.outs = [] ∧ (s.outs = [] → s.todo = [] ∧ s.nets = [])

/-- The statement an operation is, if it is one. -/
def siteOf : Instr → Option NetName
  | .ha (.wired site _ _) => some site
  | .fa (.wired site _ _ _) => some site
  | .rca4 (.wired site _ _) => some site
  | .ha (.port _ _) => none
  | .ha (.integer _ _) => none
  | .fa (.port _ _ _) => none
  | .fa (.integer _ _ _) => none
  | .rca4 (.port _ _) => none
  | .rca4 (.integer _ _) => none

/-- The interface level of an operation (R10); a statement evaluates its unit at the port level (R71, R123). -/
def levelOf : Instr → Level
  | .ha (.integer _ _) => .integer
  | .fa (.integer _ _ _) => .integer
  | .rca4 (.integer _ _) => .integer
  | .ha (.port _ _) => .port
  | .fa (.port _ _ _) => .port
  | .rca4 (.port _ _) => .port
  | .ha (.wired _ _ _) => .port
  | .fa (.wired _ _ _ _) => .port
  | .rca4 (.wired _ _ _) => .port

mutual
/-- The names an expression refers to. -/
def exprNames : Expr → List NetName
  | .name n => [n]
  | .port n _ => [n]
  | .index e _ => exprNames e
  | .slice e _ _ => exprNames e
  | .concat ps => partsNames ps
  | .const1 _ => []
  | .const4d _ => []
  | .const4b _ => []

/-- The names the parts of a concatenation refer to. -/
def partsNames : Parts → List NetName
  | .one e => exprNames e
  | .more e rest => exprNames e ++ partsNames rest
end

/-- What an evaluation is given on one input port: signals, or an integer to be taken as a bit or as a nibble (R121,
R122). -/
inductive Operand where
  | signals (v : List Signal)
  | bit (v : Int)
  | nibble (v : Int)
  deriving DecidableEq, Repr

/-- The operand is in its range (R121, R122). -/
def Operand.legal : Operand → Bool
  | .signals v => v.all binarySignal
  | .bit v => decide (v = 0 ∨ v = 1)
  | .nibble v => decide (0 ≤ v ∧ v ≤ 15)

/-- The integer given, at the integer level. -/
def Operand.argument : Operand → Option Int
  | .signals _ => none
  | .bit v => some v
  | .nibble v => some v

/-- A statement's argument as the signals it carries; none where it has no value (log 16). -/
def Operand.wire (nets : List (NetName × Net)) (e : Expr) : Operand := .signals ((evalExpr nets e).getD [])

/-- The signals of a four-bit port. -/
def Operand.port4 (p : NibbleSignals) : Operand := .signals [p.b0, p.b1, p.b2, p.b3]

/-- An operation's input ports in port order (R26), each with what it is given. A statement's arguments are read in the
names bound so far. -/
def operandsOf (nets : List (NetName × Net)) : Instr → List (PortName × Operand)
  | .ha (.port a b) => [(.a, .signals [a]), (.b, .signals [b])]
  | .ha (.integer a b) => [(.a, .bit a), (.b, .bit b)]
  | .ha (.wired _ a b) => [(.a, .wire nets a), (.b, .wire nets b)]
  | .fa (.port a b ci) => [(.a, .signals [a]), (.b, .signals [b]), (.ci, .signals [ci])]
  | .fa (.integer a b cin) => [(.a, .bit a), (.b, .bit b), (.ci, .bit cin)]
  | .fa (.wired _ a b ci) => [(.a, .wire nets a), (.b, .wire nets b), (.ci, .wire nets ci)]
  | .rca4 (.port a b) => [(.a, .port4 a), (.b, .port4 b)]
  | .rca4 (.integer a b) => [(.a, .nibble a), (.b, .nibble b)]
  | .rca4 (.wired _ a b) => [(.a, .wire nets a), (.b, .wire nets b)]

/-- The operands out of range, in port order (R125: "every offending operand, in port order"). -/
def offending (nets : List (NetName × Net)) (i : Instr) : List (PortName × Operand) :=
  (operandsOf nets i).filter fun p => !p.2.legal

/-- The record of a fault. -/
def Fault.record : Fault → FaultRecord
  | .preconditionViolation r => r

/-- What an evaluation gives the host: the outputs of a next state, the record of a fault. It leaves out the rest of the
state, which is the host's own. -/
def observed : Host.Outcome State Fault Refusal → Host.Outcome (Option Result) Fault Refusal
  | .next t => .next t.result
  | .fault f => .fault f
  | .refused r => .refused r

/-- The state in which the host asks for one netlist evaluation and then for `rest`. -/
def State.askNetlist (s : State) (n : Netlist) (inputs : List (List Signal)) (rest : List Request) : State :=
  { s with requests := .netlist n inputs :: rest, todo := [], outs := [], nets := [] }

/-- The operation given at the ports that has the same `IN` as an operation in range given as integers (R81, R91, R101:
"the same as rule R80, once the arguments have passed the check"). -/
def atPorts : Instr → Option Instr
  | .ha (.integer a b) =>
    match integerBit a, integerBit b with
    | some x, some y => some (.ha (.port (.bit x) (.bit y)))
    | _, _ => none
  | .fa (.integer a b cin) =>
    match integerBit a, integerBit b, integerBit cin with
    | some x, some y, some z => some (.fa (.port (.bit x) (.bit y) (.bit z)))
    | _, _, _ => none
  | .rca4 (.integer a b) =>
    match integerNibble a, integerNibble b with
    | some x, some y => some (.rca4 (.port (driveNibble x) (driveNibble y)))
    | _, _ => none
  | .ha (.port a b) => some (.ha (.port a b))
  | .fa (.port a b ci) => some (.fa (.port a b ci))
  | .rca4 (.port a b) => some (.rca4 (.port a b))
  | .ha (.wired _ _ _) => none
  | .fa (.wired _ _ _ _) => none
  | .rca4 (.wired _ _ _) => none

end Sys2Proof.Machine
end

