-- ==== Sys2Proof/Certificates/Slice0/Obligations.lean ====
section
/-! DEFINITION. What is stated about the model, for the provers. Each docstring names the rules of spec/ the statement
formalises or, where the clause is the model's own choice, the log entry. -/

open Sys2Proof Sys2Proof.Machine

/-! ### The half adder -/

/-- R80: `HA` on its ports, for every signal: the layout of `IN`, the outputs when both inputs carry 0 or 1 and nothing
else changed, the fault with every offending port otherwise; and the layout of `OUT`. -/
def Obligations.HalfAdderOnPorts : Prop :=
  ∀ (a b : Signal) (s : State),
    decode (.driven .ha [b, a]) = .ok (.ha (.port a b)) ∧
    (∀ x y : Bit, a = .bit x → b = .bit y →
      exec (.ha (.port a b)) s =
        .next { s with result := some (.ports (.ha { sum := x ^^^ y, carry := x &&& y })) }) ∧
    ((binarySignal a && binarySignal b) = false →
      exec (.ha (.port a b)) s = .fault (.preconditionViolation
        { unit := .ha, level := .port,
          ports := (if binarySignal a then [] else [PortName.a]) ++ (if binarySignal b then [] else [PortName.b]),
          values := none, site := none })) ∧
    (∀ o : SumCarryPair, o.out.extractLsb' 1 1 = o.carry ∧ o.out.extractLsb' 0 1 = o.sum)

/-- R81: `HalfAdder(a, b)` for every pair of integers: in range, the pair that HA gives at the ports; otherwise the fault
with every offending port and integer. -/
def Obligations.HalfAdderOnIntegers : Prop :=
  ∀ (a b : Int) (s : State),
    decode (.call .ha [a, b]) = .ok (.ha (.integer a b)) ∧
    ((a = 0 ∨ a = 1) ∧ (b = 0 ∨ b = 1) → ∃ p : SumCarryPair,
      exec (.ha (.integer a b)) s = .next { s with result := some (.sumCarry .ha p) } ∧
      exec (.ha (.port (.bit (BitVec.ofInt 1 a)) (.bit (BitVec.ofInt 1 b)))) s =
        .next { s with result := some (.ports (.ha p)) } ∧
      p.sum = BitVec.ofInt 1 a ^^^ BitVec.ofInt 1 b ∧ p.carry = BitVec.ofInt 1 a &&& BitVec.ofInt 1 b) ∧
    (¬((a = 0 ∨ a = 1) ∧ (b = 0 ∨ b = 1)) →
      exec (.ha (.integer a b)) s = .fault (.preconditionViolation
        { unit := .ha, level := .integer,
          ports := (if a = 0 ∨ a = 1 then [] else [PortName.a]) ++ (if b = 0 ∨ b = 1 then [] else [PortName.b]),
          values := some ((if a = 0 ∨ a = 1 then [] else [a]) ++ (if b = 0 ∨ b = 1 then [] else [b])),
          site := none }))

/-- R82: the laws of HA, of what the machine gives at the ports: XOR and AND, the exact sum, never both 1, commutative,
one net on both inputs; the truth table follows from the first. -/
def Obligations.HalfAdderLaws : Prop :=
  ∀ (a b : Bit) (s : State), ∃ p : SumCarryPair,
    exec (.ha (.port (.bit a) (.bit b))) s = .next { s with result := some (.ports (.ha p)) } ∧
    p.sum = a ^^^ b ∧ p.carry = a &&& b ∧
    2 * value p.carry + value p.sum = value a + value b ∧ value p.out = value a + value b ∧
    ¬(p.sum = 1 ∧ p.carry = 1) ∧
    exec (.ha (.port (.bit b) (.bit a))) s = .next { s with result := some (.ports (.ha p)) } ∧
    (a = b → p.sum = 0 ∧ p.carry = a)

/-! ### The full adder -/

/-- R90: `FA` on its ports, for every signal, with its four internal nets. -/
def Obligations.FullAdderOnPorts : Prop :=
  ∀ (a b ci : Signal) (s : State),
    decode (.driven .fa [ci, b, a]) = .ok (.fa (.port a b ci)) ∧
    (∀ x y z : Bit, a = .bit x → b = .bit y → ci = .bit z →
      faH1 x y = { sum := x ^^^ y, carry := x &&& y } ∧
      faH2 x y z = { sum := (x ^^^ y) ^^^ z, carry := (x ^^^ y) &&& z } ∧
      exec (.fa (.port a b ci)) s =
        .next { s with result := some (.ports (.fa
          { sum := (faH2 x y z).sum, carry := (faH1 x y).carry ||| (faH2 x y z).carry })) }) ∧
    ((binarySignal a && binarySignal b && binarySignal ci) = false →
      exec (.fa (.port a b ci)) s = .fault (.preconditionViolation
        { unit := .fa, level := .port,
          ports := (if binarySignal a then [] else [PortName.a]) ++ (if binarySignal b then [] else [PortName.b]) ++
            (if binarySignal ci then [] else [PortName.ci]),
          values := none, site := none })) ∧
    (∀ o : SumCarryPair, o.out.extractLsb' 1 1 = o.carry ∧ o.out.extractLsb' 0 1 = o.sum)

/-- R91: `FullAdder(a, b, cin)` for every three integers. -/
def Obligations.FullAdderOnIntegers : Prop :=
  ∀ (a b c : Int) (s : State),
    decode (.call .fa [a, b, c]) = .ok (.fa (.integer a b c)) ∧
    ((a = 0 ∨ a = 1) ∧ (b = 0 ∨ b = 1) ∧ (c = 0 ∨ c = 1) → ∃ p : SumCarryPair,
      exec (.fa (.integer a b c)) s = .next { s with result := some (.sumCarry .fa p) } ∧
      exec (.fa (.port (.bit (BitVec.ofInt 1 a)) (.bit (BitVec.ofInt 1 b)) (.bit (BitVec.ofInt 1 c)))) s =
        .next { s with result := some (.ports (.fa p)) } ∧
      2 * (value p.carry : Int) + value p.sum = a + b + c) ∧
    (¬((a = 0 ∨ a = 1) ∧ (b = 0 ∨ b = 1) ∧ (c = 0 ∨ c = 1)) →
      exec (.fa (.integer a b c)) s = .fault (.preconditionViolation
        { unit := .fa, level := .integer,
          ports := (if a = 0 ∨ a = 1 then [] else [PortName.a]) ++ (if b = 0 ∨ b = 1 then [] else [PortName.b]) ++
            (if c = 0 ∨ c = 1 then [] else [PortName.ci]),
          values := some ((if a = 0 ∨ a = 1 then [] else [a]) ++ (if b = 0 ∨ b = 1 then [] else [b]) ++
            (if c = 0 ∨ c = 1 then [] else [c])),
          site := none }))

/-- R92: the laws of FA, of what the machine gives at the ports: XOR of three, a carry when at least two inputs are 1, the
exact sum, `H1C` and `H2C` never both 1 (so their OR is their XOR), symmetric in all three inputs, HA when `CI` is 0, one
net on `A` and `B`; and the nets the truth table lists. -/
def Obligations.FullAdderLaws : Prop :=
  ∀ (a b c : Bit) (s : State), ∃ p : SumCarryPair,
    exec (.fa (.port (.bit a) (.bit b) (.bit c))) s = .next { s with result := some (.ports (.fa p)) } ∧
    p.sum = a ^^^ b ^^^ c ∧ (p.carry = 1 ↔ 2 ≤ value a + value b + value c) ∧
    2 * value p.carry + value p.sum = value a + value b + value c ∧
    value p.out = value a + value b + value c ∧
    ¬((faH1 a b).carry = 1 ∧ (faH2 a b c).carry = 1) ∧
    (faH1 a b).carry ||| (faH2 a b c).carry = (faH1 a b).carry ^^^ (faH2 a b c).carry ∧
    exec (.fa (.port (.bit b) (.bit a) (.bit c))) s = .next { s with result := some (.ports (.fa p)) } ∧
    exec (.fa (.port (.bit a) (.bit c) (.bit b))) s = .next { s with result := some (.ports (.fa p)) } ∧
    (c = 0 → exec (.ha (.port (.bit a) (.bit b))) s = .next { s with result := some (.ports (.ha p)) }) ∧
    (a = b → p.sum = c ∧ p.carry = a) ∧
    faH1 a b = { sum := a ^^^ b, carry := a &&& b } ∧
    faH2 a b c = { sum := (a ^^^ b) ^^^ c, carry := (a ^^^ b) &&& c } ∧
    p.sum = (faH2 a b c).sum ∧ p.carry = (faH1 a b).carry ||| (faH2 a b c).carry

/-! ### The 4-bit ripple-carry adder -/

/-- R100: `RCA4` on its ports, for every signal on every bit: the layout of `IN` and `OUT`, the four stages with the carry
chain `C0` to `C4`, the fault with every offending port. -/
def Obligations.RippleCarryAdderOnPorts : Prop :=
  (∀ (a b : NibbleSignals) (s : State),
    decode (.driven .rca4 [b.b0, b.b1, b.b2, b.b3, a.b0, a.b1, a.b2, a.b3]) = .ok (.rca4 (.port a b)) ∧
    (binaryNibble a = true → ∃ x : Nibble, a = driveNibble x) ∧
    (∀ x y : Nibble, a = driveNibble x → b = driveNibble y → ∃ o : Rca4Outputs,
      exec (.rca4 (.port a b)) s = .next { s with result := some (.ports (.rca4 o)) } ∧
      carryNet x y 0 = 0 ∧ o.co = carryNet x y 4 ∧
      ∀ i, i < 4 →
        nibbleBit o.s i = (fullAdd (nibbleBit x i) (nibbleBit y i) (carryNet x y i)).sum ∧
        carryNet x y (i + 1) = (fullAdd (nibbleBit x i) (nibbleBit y i) (carryNet x y i)).carry) ∧
    ((binaryNibble a && binaryNibble b) = false →
      exec (.rca4 (.port a b)) s = .fault (.preconditionViolation
        { unit := .rca4, level := .port,
          ports := (if binaryNibble a then [] else [PortName.a]) ++ (if binaryNibble b then [] else [PortName.b]),
          values := none, site := none }))) ∧
  ∀ o : Rca4Outputs, o.out.extractLsb' 4 1 = o.co ∧ o.out.extractLsb' 0 4 = o.s

/-- R101: `RippleCarryAdder(a, b)` for every pair of integers. -/
def Obligations.RippleCarryAdderOnIntegers : Prop :=
  ∀ (a b : Int) (s : State),
    decode (.call .rca4 [a, b]) = .ok (.rca4 (.integer a b)) ∧
    ((0 ≤ a ∧ a ≤ 15) ∧ (0 ≤ b ∧ b ≤ 15) → ∃ o : Rca4Outputs,
      (∀ i, i < 4 →
        nibbleBit (BitVec.ofInt 4 a) i = BitVec.ofNat 1 ((a.toNat >>> i) &&& 1) ∧
        nibbleBit (BitVec.ofInt 4 b) i = BitVec.ofNat 1 ((b.toNat >>> i) &&& 1)) ∧
      exec (.rca4 (.port (driveNibble (BitVec.ofInt 4 a)) (driveNibble (BitVec.ofInt 4 b)))) s =
        .next { s with result := some (.ports (.rca4 o)) } ∧
      exec (.rca4 (.integer a b)) s = .next { s with result := some (.addition
        { bits := #v[nibbleBit o.s 3, nibbleBit o.s 2, nibbleBit o.s 1, nibbleBit o.s 0], carryOut := o.co }) }) ∧
    (¬((0 ≤ a ∧ a ≤ 15) ∧ (0 ≤ b ∧ b ≤ 15)) →
      exec (.rca4 (.integer a b)) s = .fault (.preconditionViolation
        { unit := .rca4, level := .integer,
          ports := (if 0 ≤ a ∧ a ≤ 15 then [] else [PortName.a]) ++ (if 0 ≤ b ∧ b ≤ 15 then [] else [PortName.b]),
          values := some ((if 0 ≤ a ∧ a ≤ 15 then [] else [a]) ++ (if 0 ≤ b ∧ b ≤ 15 then [] else [b])),
          site := none }))

/-- R102: the exact-sum law, at the ports and at the integer level. -/
def Obligations.RippleCarryExactSum : Prop :=
  (∀ (x y : Nibble) (s : State), ∃ o : Rca4Outputs,
    exec (.rca4 (.port (driveNibble x) (driveNibble y))) s = .next { s with result := some (.ports (.rca4 o)) } ∧
    value o.s + 16 * value o.co = value x + value y ∧
    value o.s = (value x + value y) % 16 ∧ value o.co = (value x + value y) / 16 ∧
    (o.co = 1 ↔ 16 ≤ value x + value y)) ∧
  ∀ (a b : Int) (s : State), 0 ≤ a → a ≤ 15 → 0 ≤ b → b ≤ 15 → ∃ r : AdditionResult,
    exec (.rca4 (.integer a b)) s = .next { s with result := some (.addition r) } ∧
    ((8 * value r.bits[0] + 4 * value r.bits[1] + 2 * value r.bits[2] + value r.bits[3] + 16 * value r.carryOut : Nat) : Int)
      = a + b

/-- R104: commutativity, with each internal net. -/
def Obligations.RippleCarryCommutes : Prop :=
  (∀ (x y : Nibble) (s : State),
    exec (.rca4 (.port (driveNibble x) (driveNibble y))) s = exec (.rca4 (.port (driveNibble y) (driveNibble x))) s) ∧
  (∀ (a b : Int) (s : State), 0 ≤ a → a ≤ 15 → 0 ≤ b → b ≤ 15 →
    exec (.rca4 (.integer a b)) s = exec (.rca4 (.integer b a)) s) ∧
  ∀ (x y : Nibble) (i : Nat),
    carryNet x y i = carryNet y x i ∧
    faH1 (nibbleBit x i) (nibbleBit y i) = faH1 (nibbleBit y i) (nibbleBit x i) ∧
    faH2 (nibbleBit x i) (nibbleBit y i) (carryNet x y i) = faH2 (nibbleBit y i) (nibbleBit x i) (carryNet y x i)

/-- R105: identity, with every carry net 0. -/
def Obligations.RippleCarryIdentity : Prop :=
  (∀ (x : Nibble) (s : State),
    exec (.rca4 (.port (driveNibble x) (driveNibble 0))) s =
      .next { s with result := some (.ports (.rca4 { s := x, co := 0 })) } ∧
    ∀ i, carryNet x 0 i = 0) ∧
  ∀ (a : Int) (s : State), 0 ≤ a → a ≤ 15 →
    exec (.rca4 (.integer a 0)) s = .next { s with result := some (.addition
      { bits := #v[BitVec.ofNat 1 (a.toNat / 8), BitVec.ofNat 1 (a.toNat / 4), BitVec.ofNat 1 (a.toNat / 2),
          BitVec.ofNat 1 a.toNat], carryOut := 0 }) }

/-- R106: the stage carries, stage 0 as a half adder, one net on both inputs, full ripple, the largest results. -/
def Obligations.RippleCarryStageLaws : Prop :=
  (∀ (x y : Nibble) (i : Nat), i < 4 →
    (carryNet x y (i + 1) = 1 ↔ 2 ^ (i + 1) ≤ value x % 2 ^ (i + 1) + value y % 2 ^ (i + 1)) ∧
    value (rippleAdd x y).s % 2 ^ (i + 1) + 2 ^ (i + 1) * value (carryNet x y (i + 1)) =
      value x % 2 ^ (i + 1) + value y % 2 ^ (i + 1) ∧
    ∀ x' y' : Nibble, value x' % 2 ^ (i + 1) = value x % 2 ^ (i + 1) → value y' % 2 ^ (i + 1) = value y % 2 ^ (i + 1) →
      nibbleBit (rippleAdd x' y').s i = nibbleBit (rippleAdd x y).s i ∧ carryNet x' y' (i + 1) = carryNet x y (i + 1)) ∧
  (∀ x y : Nibble,
    nibbleBit (rippleAdd x y).s 0 = (halfAdd (nibbleBit x 0) (nibbleBit y 0)).sum ∧
    carryNet x y 1 = (halfAdd (nibbleBit x 0) (nibbleBit y 0)).carry) ∧
  (∀ x : Nibble, rippleAdd x x = { s := x.extractLsb' 0 3 ++ (0 : Bit), co := nibbleBit x 3 }) ∧
  (∀ x y : Nibble,
    (carryNet x y 1 = 1 ∧ carryNet x y 2 = 1 ∧ carryNet x y 3 = 1 ∧ carryNet x y 4 = 1) ↔
      (nibbleBit x 0 = 1 ∧ nibbleBit y 0 = 1 ∧
        ∀ i, 1 ≤ i → i ≤ 3 → nibbleBit x i ||| nibbleBit y i = 1)) ∧
  (rippleAdd 15 15 = { s := 14, co := 1 }) ∧
  (∀ x y : Nibble, value (rippleAdd x y).out ≤ 30 ∧ ((rippleAdd x y).co = 0 → value (rippleAdd x y).out ≤ 15)) ∧
  ∃ x y : Nibble, (rippleAdd x y).co = 0 ∧ value (rippleAdd x y).out = 15

/-! ### Vectors, results and operands -/

/-- R61, R62, R63: the packed vectors of the three units. Bits of the vector `w`, driven on the unit's `IN` bit 0 first, are
the ports the layouts name, and `value(OUT)` is the exact sum of the operands. -/
def Obligations.PackedVectorsGiveExactSums : Prop :=
  ∀ (s : State),
    (∀ w : BitVec 2, ∃ o : SumCarryPair,
      decode (.driven .ha ((List.range 2).map fun k => .bit (w.extractLsb' k 1))) =
        .ok (.ha (.port (.bit (w.extractLsb' 1 1)) (.bit (w.extractLsb' 0 1)))) ∧
      exec (.ha (.port (.bit (w.extractLsb' 1 1)) (.bit (w.extractLsb' 0 1)))) s =
        .next { s with result := some (.ports (.ha o)) } ∧
      o.out.extractLsb' 1 1 = o.carry ∧ o.out.extractLsb' 0 1 = o.sum ∧
      value o.out = value (w.extractLsb' 1 1) + value (w.extractLsb' 0 1)) ∧
    (∀ w : BitVec 3, ∃ o : SumCarryPair,
      decode (.driven .fa ((List.range 3).map fun k => .bit (w.extractLsb' k 1))) =
        .ok (.fa (.port (.bit (w.extractLsb' 2 1)) (.bit (w.extractLsb' 1 1)) (.bit (w.extractLsb' 0 1)))) ∧
      exec (.fa (.port (.bit (w.extractLsb' 2 1)) (.bit (w.extractLsb' 1 1)) (.bit (w.extractLsb' 0 1)))) s =
        .next { s with result := some (.ports (.fa o)) } ∧
      o.out.extractLsb' 1 1 = o.carry ∧ o.out.extractLsb' 0 1 = o.sum ∧
      value o.out = value (w.extractLsb' 2 1) + value (w.extractLsb' 1 1) + value (w.extractLsb' 0 1)) ∧
    (∀ w : BitVec 8, ∃ o : Rca4Outputs,
      decode (.driven .rca4 ((List.range 8).map fun k => .bit (w.extractLsb' k 1))) =
        .ok (.rca4 (.port (driveNibble (w.extractLsb' 4 4)) (driveNibble (w.extractLsb' 0 4)))) ∧
      exec (.rca4 (.port (driveNibble (w.extractLsb' 4 4)) (driveNibble (w.extractLsb' 0 4)))) s =
        .next { s with result := some (.ports (.rca4 o)) } ∧
      o.out.extractLsb' 4 1 = o.co ∧ o.out.extractLsb' 0 4 = o.s ∧
      value o.out = value (w.extractLsb' 4 4) + value (w.extractLsb' 0 4))

/-- R67: the results of the integer level are the outputs of the ports: `(sum, carry) = (S, CO)`,
`bits = [S[3], S[2], S[1], S[0]]`, `carryOut = CO`, and RCA4's `OUT` is the exact sum. -/
def Obligations.IntegerResultsAreThePortOutputs : Prop :=
  ∀ (i j : Instr) (s : State), atPorts i = some j → levelOf i = .integer →
    ∃ o : Outputs, exec j s = .next { s with result := some (.ports o) } ∧
      ((∃ p, (o = .ha p ∨ o = .fa p) ∧ exec i s = .next { s with result := some (.sumCarry i.unit p) }) ∨
       (∃ p, o = .rca4 p ∧
        exec i s = .next { s with result := some (.addition
          { bits := #v[nibbleBit p.s 3, nibbleBit p.s 2, nibbleBit p.s 1, nibbleBit p.s 0], carryOut := p.co }) } ∧
        ∃ x y, j = .rca4 (.port (driveNibble x) (driveNibble y)) ∧ value p.out = value x + value y))

/-- R66: an integer operand is checked and then taken as it is: `value(A) = a`, and bit `i` is `(a >> i) AND 1`. It is
never clamped or masked into range. -/
def Obligations.IntegerOperandAssembly : Prop :=
  (∀ (v : Int) (x : Nibble), integerNibble v = some x ↔ (0 ≤ v ∧ v ≤ 15) ∧ (value x : Int) = v) ∧
  (∀ (v : Int) (x : Nibble) (i : Nat), integerNibble v = some x → i < 4 →
    nibbleBit x i = BitVec.ofNat 1 ((v.toNat >>> i) &&& 1)) ∧
  ∀ (v : Int) (x : Bit), integerBit v = some x ↔ (v = 0 ∨ v = 1) ∧ (value x : Int) = v

/-! ### Faults -/

/-- R121 and R122: when the three units fault, at both levels. -/
def Obligations.PreconditionViolationCauses : Prop :=
  ∀ s : State,
    (∀ a b : Int, (∃ f, exec (.ha (.integer a b)) s = .fault f) ↔ (a ≠ 0 ∧ a ≠ 1) ∨ (b ≠ 0 ∧ b ≠ 1)) ∧
    (∀ a b c : Int, (∃ f, exec (.fa (.integer a b c)) s = .fault f) ↔
      (a ≠ 0 ∧ a ≠ 1) ∨ (b ≠ 0 ∧ b ≠ 1) ∨ (c ≠ 0 ∧ c ≠ 1)) ∧
    (∀ a b : Int, (∃ f, exec (.rca4 (.integer a b)) s = .fault f) ↔ a < 0 ∨ 15 < a ∨ b < 0 ∨ 15 < b) ∧
    (∀ a b : Signal, (∃ f, exec (.ha (.port a b)) s = .fault f) ↔ ∃ x ∈ [a, b], ∀ v : Bit, x ≠ .bit v) ∧
    (∀ a b c : Signal, (∃ f, exec (.fa (.port a b c)) s = .fault f) ↔ ∃ x ∈ [a, b, c], ∀ v : Bit, x ≠ .bit v) ∧
    (∀ a b : NibbleSignals, (∃ f, exec (.rca4 (.port a b)) s = .fault f) ↔
      ∃ x ∈ [a.b3, a.b2, a.b1, a.b0, b.b3, b.b2, b.b1, b.b0], ∀ v : Bit, x ≠ .bit v)

/-- R123, R125: the code and the record of every fault of every operation in every state. `ports` names every offending
operand and no other, in port order, and at the integer level `values` are exactly the offending arguments. That a
statement's record says `port`, that `values` is absent at the port level and `site` outside a netlist, and that an
operand of RCA4 offends once, is the model's reading (log 13, DEDUCED). -/
def Obligations.FaultRecordIsComplete : Prop :=
  ∀ (i : Instr) (s : State) (f : Fault), exec i s = .fault f →
    f.code = 1 ∧ f.record.unit = i.unit ∧ f.record.level = levelOf i ∧
    f.record.ports ≠ [] ∧ f.record.ports.Sublist i.unit.inPorts ∧
    f.record.ports = (offending s.nets i).map Prod.fst ∧
    (levelOf i = .integer → f.record.values = some ((offending s.nets i).filterMap fun p => p.2.argument) ∧
      ∃ vs, f.record.values = some vs ∧ vs.length = f.record.ports.length) ∧
    (levelOf i = .port → f.record.values = none) ∧
    f.record.site = siteOf i

/-- R135: an operand out of range is a fault and never a result, in every state. -/
def Obligations.OutOfRangeNeverAnswers : Prop :=
  ∀ (s : State),
    (∀ a b : Int, ¬((a = 0 ∨ a = 1) ∧ (b = 0 ∨ b = 1)) → ∃ f, exec (.ha (.integer a b)) s = .fault f) ∧
    (∀ a b c : Int, ¬((a = 0 ∨ a = 1) ∧ (b = 0 ∨ b = 1) ∧ (c = 0 ∨ c = 1)) →
      ∃ f, exec (.fa (.integer a b c)) s = .fault f) ∧
    (∀ a b : Int, ¬((0 ≤ a ∧ a ≤ 15) ∧ (0 ≤ b ∧ b ≤ 15)) → ∃ f, exec (.rca4 (.integer a b)) s = .fault f)

/-- R120: an operation given at its ports or as integers ends in exactly one of two ways, its outputs or a fault, decided
by its operands alone. It is never refused. -/
def Obligations.TwoOutcomesOfAnEvaluation : Prop :=
  ∀ (i : Instr) (s : State), siteOf i = none →
    (inRange i = true → ∃ r, exec i s = .next { s with result := some r }) ∧
    (inRange i = false → ∃ r, exec i s = .fault (.preconditionViolation r))

/-! ### No state: transparency and frames -/

/-- R27: an evaluation's outputs, or its fault, are a function of its inputs alone: no state of the machine, no earlier
evaluation and no other instance changes them. -/
def Obligations.OutputsDependOnInputsOnly : Prop :=
  ∀ (i : Instr) (s t : State), siteOf i = none → observed (exec i s) = observed (exec i t)

/-- R46, for HA, FA and RCA4 at their ports and as integers: evaluating a unit changes nothing outside what the host reads
of its outputs, and evaluating it again with the same inputs gives the same outputs and changes nothing more. -/
def Obligations.EvaluationHasNoSideEffects : Prop :=
  ∀ (i : Instr) (s t : State), siteOf i = none → exec i s = .next t →
    t.requests = s.requests ∧ t.todo = s.todo ∧ t.outs = s.outs ∧ t.nets = s.nets ∧ exec i t = .next t

/-- The frame of a statement (R75): one new name is bound, to outputs of the statement's unit; every other name keeps its
value and nothing else changes. The clause that the name was bound to nothing before, so that a statement whose name is bound
already answers no next state, is the model's choice for states outside a well-formed netlist (log 16, DESIGN CHOICE); R75
does not speak of such a state. -/
def Obligations.StatementFrame : Prop :=
  ∀ (i : Instr) (s t : State) (site : NetName), siteOf i = some site → exec i s = .next t →
    t.requests = s.requests ∧ t.todo = s.todo ∧ t.outs = s.outs ∧ t.result = s.result ∧
    assoc s.nets site = none ∧
    (∃ o : Outputs, assoc t.nets site = some (.inst o) ∧ o.unit = i.unit) ∧
    ∀ n, n ≠ site → assoc t.nets n = assoc s.nets n

/-! ### Statements of a netlist -/

/-- R75 for HA: the statement's outputs on its argument values, in every state in which they have values. -/
def Obligations.HalfAdderStatement : Prop :=
  ∀ (site : NetName) (ea eb : Expr) (a b : Signal) (s : State),
    evalExpr s.nets ea = some [a] → evalExpr s.nets eb = some [b] → assoc s.nets site = none →
    (∀ x y : Bit, a = .bit x → b = .bit y →
      exec (.ha (.wired site ea eb)) s =
        .next { s with nets := s.nets ++ [(site, .inst (.ha { sum := x ^^^ y, carry := x &&& y }))] }) ∧
    ((binarySignal a && binarySignal b) = false →
      exec (.ha (.wired site ea eb)) s = .fault (.preconditionViolation
        { unit := .ha, level := .port,
          ports := (if binarySignal a then [] else [PortName.a]) ++ (if binarySignal b then [] else [PortName.b]),
          values := none, site := some site }))

/-- R75 for FA. -/
def Obligations.FullAdderStatement : Prop :=
  ∀ (site : NetName) (ea eb ec : Expr) (a b c : Signal) (s : State),
    evalExpr s.nets ea = some [a] → evalExpr s.nets eb = some [b] → evalExpr s.nets ec = some [c] →
    assoc s.nets site = none →
    (∀ x y z : Bit, a = .bit x → b = .bit y → c = .bit z →
      exec (.fa (.wired site ea eb ec)) s =
        .next { s with nets := s.nets ++ [(site, .inst (.fa
          { sum := x ^^^ y ^^^ z, carry := (x &&& y) ||| ((x ^^^ y) &&& z) }))] }) ∧
    ((binarySignal a && binarySignal b && binarySignal c) = false →
      exec (.fa (.wired site ea eb ec)) s = .fault (.preconditionViolation
        { unit := .fa, level := .port,
          ports := (if binarySignal a then [] else [PortName.a]) ++ (if binarySignal b then [] else [PortName.b]) ++
            (if binarySignal c then [] else [PortName.ci]),
          values := none, site := some site }))

/-- R75 for RCA4: the bound outputs are the exact sum. -/
def Obligations.RippleCarryAdderStatement : Prop :=
  ∀ (site : NetName) (ea eb : Expr) (a b : NibbleSignals) (s : State),
    evalExpr s.nets ea = some [a.b0, a.b1, a.b2, a.b3] → evalExpr s.nets eb = some [b.b0, b.b1, b.b2, b.b3] →
    assoc s.nets site = none →
    (∀ x y : Nibble, a = driveNibble x → b = driveNibble y → ∃ o : Rca4Outputs,
      exec (.rca4 (.wired site ea eb)) s = .next { s with nets := s.nets ++ [(site, .inst (.rca4 o))] } ∧
      value o.s + 16 * value o.co = value x + value y) ∧
    ((binaryNibble a && binaryNibble b) = false →
      exec (.rca4 (.wired site ea eb)) s = .fault (.preconditionViolation
        { unit := .rca4, level := .port,
          ports := (if binaryNibble a then [] else [PortName.a]) ++ (if binaryNibble b then [] else [PortName.b]),
          values := none, site := some site }))

/-- R71 and R13: what expressions mean, bit 0 first: a name, an instance's output ports, one bit, a slice from `lo` up to
`hi`, a concatenation with its first part in the more significant bits, constants. R71 does not fix how many digits a `4'b`
constant has: that any number of them stands for the number they write, most significant first, is the model's reading (log
10, DEDUCED), said for every list of digits whose number is at most 15. -/
def Obligations.ExpressionMeaning : Prop :=
  ∀ (nets : List (NetName × Net)),
    (∀ n v, assoc nets n = some (.input v) → evalExpr nets (.name n) = some v) ∧
    (∀ n p, assoc nets n = some (.inst (.ha p)) ∨ assoc nets n = some (.inst (.fa p)) →
      evalExpr nets (.port n .s) = some [.bit p.sum] ∧ evalExpr nets (.port n .co) = some [.bit p.carry]) ∧
    (∀ n p, assoc nets n = some (.inst (.rca4 p)) →
      evalExpr nets (.port n .s) =
        some [.bit (nibbleBit p.s 0), .bit (nibbleBit p.s 1), .bit (nibbleBit p.s 2), .bit (nibbleBit p.s 3)] ∧
      evalExpr nets (.port n .co) = some [.bit p.co]) ∧
    (∀ e v i x, evalExpr nets e = some v → v[i]? = some x → evalExpr nets (.index e i) = some [x]) ∧
    (∀ e v hi lo, evalExpr nets e = some v → lo ≤ hi → hi < v.length →
      ∃ w, evalExpr nets (.slice e hi lo) = some w ∧ w.length = hi - lo + 1 ∧ ∀ k, k < hi - lo + 1 → w[k]? = v[lo + k]?) ∧
    (∀ e v rest low, evalExpr nets e = some v → evalParts nets rest = some low →
      evalExpr nets (.concat (.more e rest)) = some (low ++ v)) ∧
    (∀ e, evalExpr nets (.concat (.one e)) = evalExpr nets e) ∧
    (∀ n, n ≤ 1 → evalExpr nets (.const1 n) = some [.bit (BitVec.ofNat 1 n)]) ∧
    (∀ v : Nibble, evalExpr nets (.const4d (value v)) =
      some [.bit (nibbleBit v 0), .bit (nibbleBit v 1), .bit (nibbleBit v 2), .bit (nibbleBit v 3)]) ∧
    (∀ d3 d2 d1 d0 : Bool, evalExpr nets (.const4b [d3, d2, d1, d0]) =
      some [.bit (BitVec.ofBool d0), .bit (BitVec.ofBool d1), .bit (BitVec.ofBool d2), .bit (BitVec.ofBool d3)]) ∧
    (∀ (ds : List Bool) (v : Nibble), binaryValue ds = value v → evalExpr nets (.const4b ds) =
      some [.bit (nibbleBit v 0), .bit (nibbleBit v 1), .bit (nibbleBit v 2), .bit (nibbleBit v 3)]) ∧
    binaryValue [] = 0 ∧ (∀ ds d, binaryValue (ds ++ [d]) = 2 * binaryValue ds + d.toNat)

/-! ### Decoding and the notation -/

/-- Words written out from the layouts of R61, R62 and R63, and from the call syntax of R70 and the statement syntax of R71.
That a word of 2, 3 or 8 bits is HA's, FA's or RCA4's, and that one too wide is refused, is the model's choice (log 5, DESIGN
CHOICE): by R64 no bit of a word selects the unit. -/
def Obligations.WrittenOutWordsDecode : Prop :=
  decodeTableWord 2 0b10 = some (.ha (.port (.bit 1) (.bit 0))) ∧
  decodeTableWord 3 0b011 = some (.fa (.port (.bit 0) (.bit 1) (.bit 1))) ∧
  decodeTableWord 8 0b01011010 =
    some (.rca4 (.port ⟨.bit 0, .bit 1, .bit 0, .bit 1⟩ ⟨.bit 1, .bit 0, .bit 1, .bit 0⟩)) ∧
  decodeTableWord 2 0b100 = none ∧
  decode (.call .fa [1, 0, 1]) = .ok (.fa (.integer 1 0 1)) ∧
  decode (.wired ⟨"f0", .fa, [.index (.name "a") 0, .index (.name "b") 0, .const1 0]⟩) =
    .ok (.fa (.wired "f0" (.index (.name "a") 0) (.index (.name "b") 0) (.const1 0)))

/-- Decoding an encoded operation gives it back: no operand of any form is dropped (R60 to R63, R70, R71). -/
def Obligations.DecodeOfEncode : Prop :=
  ∀ i : Instr, decode (encode i) = .ok i

/-- Each operation as given has one meaning: what decodes is what the encoder writes. -/
def Obligations.EncodeOfDecode : Prop :=
  ∀ (r : RawOp) (i : Instr), decode r = .ok i → encode i = r

/-- R64, R68: every vector of a unit's width, whatever its signals, is that unit's operation. That a vector of another width is
rejected, by name, is the model's choice (log 11, DESIGN CHOICE): the spec gives such a vector no meaning. -/
def Obligations.EveryInputVectorIsLegal : Prop :=
  ∀ (u : UnitName) (bits : List Signal),
    (bits.length = u.inWidth → ∃ i, decode (.driven u bits) = .ok i ∧ i.unit = u ∧ encode i = .driven u bits) ∧
    (bits.length ≠ u.inWidth → decode (.driven u bits) = .error (.inputWidth u bits.length))

/-- The word of an operation on binary ports is decoded to it, at its unit's width, and fits in that width. That the width of
a word chooses the unit is the model's choice (log 5, DESIGN CHOICE). -/
def Obligations.InputWordsDecodeBack : Prop :=
  ∀ (i : Instr) (w : Nat), inWord i = some w →
    decodeTableWord i.unit.inWidth w = some i ∧ w < 2 ^ i.unit.inWidth

/-- The netlist notation of R71 is read back as it was written. -/
def Obligations.NotationReadsWhatItWrites : Prop :=
  ∀ n : Netlist, n.inGrammar = true → readNetlist (writeNetlist n) = some n

/-- The notation is unambiguous (R71): two netlists of the grammar written in the same words are one netlist, and what the
reader accepts is a netlist of the grammar, written as exactly those words. -/
def Obligations.NotationIsUnambiguous : Prop :=
  (∀ n m : Netlist, n.inGrammar = true → m.inGrammar = true → writeNetlist n = writeNetlist m → n = m) ∧
  ∀ (ts : List Token) (n : Netlist), readNetlist ts = some n → writeNetlist n = ts ∧ n.inGrammar = true

/-! ### The step -/

/-- A step runs the decoded operation: of the next request, or of the next statement of the netlist in progress. -/
def Obligations.StepRunsTheDecodedOperation : Prop :=
  ∀ (s : State) (i : Instr),
    (∀ u bits rest, ¬ s.running → s.requests = .drive u bits :: rest → decode (.driven u bits) = .ok i →
      step s = exec i { s with requests := rest }) ∧
    (∀ u args rest, ¬ s.running → s.requests = .call u args :: rest → decode (.call u args) = .ok i →
      step s = exec i { s with requests := rest }) ∧
    (∀ st rest, s.todo = st :: rest → decode (.wired st) = .ok i →
      step s = exec i { s with todo := rest })

/-- A vector or an argument list that is no operation of its unit is refused, by name. -/
def Obligations.UndecodableIsRefused : Prop :=
  ∀ (s : State) (e : DecodeError),
    (∀ u bits rest, ¬ s.running → s.requests = .drive u bits :: rest → decode (.driven u bits) = .error e →
      step s = .refused (.undecodable e)) ∧
    (∀ u args rest, ¬ s.running → s.requests = .call u args :: rest → decode (.call u args) = .error e →
      step s = .refused (.undecodable e))

/-- Driving a unit with a table word is the very next evaluation, and a word that is no operation is refused by the next step,
whatever the state. How a word is fetched, and that one too wide or of a width no unit has is refused, is the model's choice
(log 3, log 5, DESIGN CHOICE). -/
def Obligations.FetchedWordIsTheNextEvaluation : Prop :=
  ∀ (s : State) (nbits w : Nat),
    (∀ i, decodeTableWord nbits w = some i →
      step (s.withFetchWord nbits w) = exec i { s with todo := [], outs := [], nets := [] }) ∧
    (decodeTableWord nbits w = none → ∃ e, step (s.withFetchWord nbits w) = .refused (.undecodable e))

/-- R40: a request that names memory is refused; and, the model's choice (log 4), with nothing asked for and no netlist in
progress a step changes nothing. -/
def Obligations.MemoryIsRefusedAndIdleIsStill : Prop :=
  (∀ (s : State) (address : Nat) (rest : List Request), ¬ s.running → s.requests = .memory address :: rest →
    step s = .refused (.noMemory address)) ∧
  ∀ s : State, ¬ s.running → s.requests = [] → step s = .next s

/-- R32, R140: nothing is bound, driven, asked for or read at reset. That `State` holds the host's side at all is the
model's choice (log 1 and 2). -/
def Obligations.ResetHoldsNothing : Prop :=
  State.reset.requests = [] ∧ State.reset.todo = [] ∧ State.reset.outs = [] ∧ State.reset.nets = [] ∧
    State.reset.result = none ∧ State.reset.Inv

/-! ### Netlists -/

/-- R72: a netlist of the grammar that fails any of the named checks is refused, with the checks it fails, and one that
fails none starts when each declared input is driven with signals of its width. -/
def Obligations.NetlistChecksDecideTheStart : Prop :=
  ∀ (s : State) (n : Netlist) (inputs : List (List Signal)) (rest : List Request),
    ¬ s.running → s.requests = .netlist n inputs :: rest → n.inGrammar = true →
    ((∃ k, passes n.ctx n.stmts n.outs k = false) →
      step s = .refused (.illFormedNetlist n.failed) ∧
        ∀ k, k ∈ n.failed ↔ passes n.ctx n.stmts n.outs k = false) ∧
    ((∀ k, passes n.ctx n.stmts n.outs k = true) → inputs.map List.length = n.decls.map (fun d => d.width.bits) →
      step s = .next
        { s with requests := rest, todo := n.stmts, outs := n.outs,
                 nets := (n.decls.zip inputs).map fun p => (p.1.name, .input p.2) })

/-- R145: in a well-formed netlist every name a statement refers to is a declared input or an earlier statement, so none of
its own outputs, directly or through later instances, is among its inputs. -/
def Obligations.NoCombinationalLoop : Prop :=
  ∀ (n : Netlist) (pre post : List Stmt) (st : Stmt), n.wellFormed → n.stmts = pre ++ st :: post →
    ∀ e ∈ st.args, ∀ m ∈ exprNames e,
      (m ∈ n.decls.map Decl.name ∨ m ∈ pre.map Stmt.name) ∧ m ≠ st.name ∧ m ∉ post.map Stmt.name

/-- The invariant is kept by every step: what is left of a netlist in progress stays well formed on the names bound so
far, whatever the values are, and nothing stays bound after its end (R20, R72, R75). -/
def Obligations.StepKeepsInvariant : Prop :=
  ∀ s t : State, s.Inv → step s = .next t → t.Inv

/-- R120, "There is no refusal of a well-formed input either": a netlist evaluation in progress is never refused. Each of
its steps gives a next state or the fault. -/
def Obligations.NetlistInProgressIsNeverRefused : Prop :=
  ∀ s : State, s.Inv → s.running → (∃ t, step s = .next t) ∨ (∃ f, step s = .fault f)

/-- R75: the machine's steps evaluate the netlist. From the state in which the host asks for it, one step to start, one a
statement and one for the outputs end as the evaluation of the whole netlist ends: in its outputs, in its fault with no
outputs, or refused. -/
def Obligations.StepsEvaluateTheNetlist : Prop :=
  ∀ (s : State) (n : Netlist) (inputs : List (List Signal)) (rest : List Request),
    Host.Core.run Sys2Proof.core (n.stmts.length + 2) (s.askNetlist n inputs rest) =
      match evalNetlist n inputs with
      | .next vs => Host.Outcome.next
          { s with requests := rest, todo := [], outs := [], nets := [], result := some (.netlist vs) }
      | .fault f => Host.Outcome.fault f
      | .refused r => Host.Outcome.refused r

/-- R120, R148: the evaluation of a well-formed netlist on driven inputs ends, with a value for each of its outputs or with
a fault, and with nothing else. -/
def Obligations.WellFormedNetlistEnds : Prop :=
  ∀ (n : Netlist) (inputs : List (List Signal)),
    n.inGrammar = true → n.wellFormed → inputs.map List.length = n.decls.map (fun d => d.width.bits) →
    (∃ vs, evalNetlist n inputs = .next vs ∧ vs.map Prod.fst = n.outs.map OutDecl.name) ∨
    (∃ f, evalNetlist n inputs = .fault f)

/-- R124, R28: a well-formed netlist whose inputs carry 0 and 1 only never faults, and each of its outputs carries 0 and 1
only. -/
def Obligations.BinaryInputsNeverFault : Prop :=
  ∀ (n : Netlist) (inputs : List (List Signal)),
    n.inGrammar = true → n.wellFormed → inputs.map List.length = n.decls.map (fun d => d.width.bits) →
    (∀ v ∈ inputs, ∀ x ∈ v, binarySignal x = true) →
    ∃ vs, evalNetlist n inputs = .next vs ∧ ∀ p ∈ vs, ∀ x ∈ p.2, binarySignal x = true

/-- R125, R127: the fault of a netlist is that of the first statement, in netlist order, that faults; the statements before
it were evaluated, those after it are not, and its name is the record's `site`. -/
def Obligations.FirstFaultingStatementIsReported : Prop :=
  ∀ (nets : List (NetName × Net)) (stmts : List Stmt) (f : Fault), evalStmts nets stmts = .fault f →
    ∃ (pre : List Stmt) (st : Stmt) (post : List Stmt) (bound : List (NetName × Net)),
      stmts = pre ++ st :: post ∧ evalStmts nets pre = .next bound ∧ evalStmt bound st = .fault f ∧
      f.record.site = some st.name ∧ f.record.unit = st.unit

/-- R17, R74: "any order that respects data dependencies gives the same result": two well-formed netlists that differ in
the order of their statements give the same outputs, or neither gives outputs. -/
def Obligations.StatementOrderDoesNotMatter : Prop :=
  ∀ (n m : Netlist) (inputs : List (List Signal)),
    n.inGrammar = true → n.wellFormed → m.wellFormed →
    m.decls = n.decls → m.outs = n.outs → m.stmts.Perm n.stmts →
    ∀ vs, evalNetlist n inputs = .next vs ↔ evalNetlist m inputs = .next vs

/-! ### What each named check demands -/

/-- The width of each form of expression (R71), in any context: a declared input's own; `S` and `CO` of HA and FA one bit,
of RCA4 four and one; one bit of `e[i]`; `hi - lo + 1` bits of `e[hi:lo]`; "A concatenation's width is the sum of its parts";
constants 1 and 4 bits. -/
def Obligations.ExpressionWidths : Prop :=
  ∀ c : Ctx,
    (∀ n w, assoc c n = some (.input w) → (Expr.name n).widthIn c = some w) ∧
    (∀ n u p, assoc c n = some (.inst u) → (Expr.port n p).widthIn c =
      some (match u, p with
        | .rca4, .s => 4
        | .rca4, .co => 1
        | .ha, _ => 1
        | .fa, _ => 1)) ∧
    (∀ e w i, e.widthIn c = some w → i < w → (Expr.index e i).widthIn c = some 1) ∧
    (∀ e w hi lo, e.widthIn c = some w → lo ≤ hi → hi < w → (Expr.slice e hi lo).widthIn c = some (hi - lo + 1)) ∧
    (∀ e, (Expr.concat (.one e)).widthIn c = e.widthIn c) ∧
    (∀ e rest w v, e.widthIn c = some w → rest.widthIn c = some v →
      (Expr.concat (.more e rest)).widthIn c = some (w + v)) ∧
    (∀ n, (Expr.const1 n).widthIn c = some 1) ∧
    (∀ n, (Expr.const4d n).widthIn c = some 4) ∧
    (∀ ds, (Expr.const4b ds).widthIn c = some 4)

/-- What each of the six named checks of R72 demands of a netlist, no less and no more.
`single-assignment`: no name twice among inputs, statements and outputs together (log 8). `defined-before-use`, where no name
is twice: a NAME in an expression is a declared input, the NAME of `n.S` or `n.CO` an earlier statement (that a bare instance
name and a port of an input fail this check is the model's choice, log 18). `arity`: 2, 3 and 2 arguments. `width`, where
every reference and index is good: every argument is 1 bit wide for HA and FA, 4 for RCA4. `index-range`, where every
reference is good: each index and slice lies inside its operand (a reversed slice does not, log 10). `constant-range`: 1-bit
constants are at most 1, 4-bit constants at most 15. -/
def Obligations.NamedChecksDemand : Prop :=
  ∀ n : Netlist,
    (passes n.ctx n.stmts n.outs .singleAssignment = true ↔
      ∀ (i j : Nat) (m : NetName), n.names[i]? = some m → n.names[j]? = some m → i = j) ∧
    (n.names.Nodup → (passes n.ctx n.stmts n.outs .definedBeforeUse = true ↔
      ∀ pre e, n.places pre e → ∀ x ∈ subExprs e,
        (∀ m, x = .name m → m ∈ n.decls.map Decl.name) ∧
        (∀ m p, x = .port m p → m ∈ pre.map Stmt.name))) ∧
    (passes n.ctx n.stmts n.outs .arity = true ↔
      ∀ st ∈ n.stmts, st.args.length =
        match st.unit with
        | .ha => 2
        | .fa => 3
        | .rca4 => 2) ∧
    (passes n.ctx n.stmts n.outs .definedBeforeUse = true → passes n.ctx n.stmts n.outs .indexRange = true →
      (passes n.ctx n.stmts n.outs .width = true ↔
        ∀ pre st post, n.stmts = pre ++ st :: post → ∀ e ∈ st.args, e.widthIn (n.ctxAfter pre) =
          some (match st.unit with
            | .ha => 1
            | .fa => 1
            | .rca4 => 4))) ∧
    (passes n.ctx n.stmts n.outs .definedBeforeUse = true →
      (passes n.ctx n.stmts n.outs .indexRange = true ↔
        ∀ pre e, n.places pre e → ∀ x ∈ subExprs e,
          (∀ y i, x = .index y i → ∃ w, y.widthIn (n.ctxAfter pre) = some w ∧ i < w) ∧
          (∀ y hi lo, x = .slice y hi lo → ∃ w, y.widthIn (n.ctxAfter pre) = some w ∧ lo ≤ hi ∧ hi < w))) ∧
    (passes n.ctx n.stmts n.outs .constantRange = true ↔
      ∀ pre e, n.places pre e → ∀ x ∈ subExprs e,
        (∀ k, x = .const1 k → k ≤ 1) ∧ (∀ k, x = .const4d k → k ≤ 15) ∧
        (∀ ds, x = .const4b ds → binaryValue ds ≤ 15))

/-- The model's choice (log 5, DESIGN CHOICE: by R64 no bit selects the unit): every word of 2, 3 or 8 bits is the `IN` of HA,
FA or RCA4, and neither a word that does not fit in its width nor one of another width is an operation. -/
def Obligations.TableWordsAreReadByWidth : Prop :=
  (∀ w : BitVec 2, decodeTableWord 2 w.toNat =
    some (.ha (.port (.bit (w.extractLsb' 1 1)) (.bit (w.extractLsb' 0 1))))) ∧
  (∀ w : BitVec 3, decodeTableWord 3 w.toNat =
    some (.fa (.port (.bit (w.extractLsb' 2 1)) (.bit (w.extractLsb' 1 1)) (.bit (w.extractLsb' 0 1))))) ∧
  (∀ w : BitVec 8, decodeTableWord 8 w.toNat =
    some (.rca4 (.port (driveNibble (w.extractLsb' 4 4)) (driveNibble (w.extractLsb' 0 4))))) ∧
  ∀ nbits w : Nat, 2 ^ nbits ≤ w ∨ (nbits ≠ 2 ∧ nbits ≠ 3 ∧ nbits ≠ 8) → decodeTableWord nbits w = none

/-- R126, R49: what a step gives of the host's next request, its outputs, its fault or its refusal, is the same whatever stands
behind that request and whatever else the state holds; a requested netlist, which gives nothing to read when it starts, starts
or is refused alike. That a fault or a refusal ends the run, so that the requests behind it are not evaluated in it, is the
model's choice (log 17, DESIGN CHOICE). -/
def Obligations.NextRequestStandsAlone : Prop :=
  ∀ (s t : State) (r : Request) (rest more : List Request), ¬ s.running → ¬ t.running →
    s.requests = r :: rest → t.requests = r :: more →
    ((∀ n inputs, r ≠ .netlist n inputs) → observed (step s) = observed (step t)) ∧
    ∀ n inputs, r = .netlist n inputs →
      (∃ q, step s = .refused q ∧ step t = .refused q) ∨
      (∃ s' t', step s = .next s' ∧ step t = .next t' ∧
        s'.todo = t'.todo ∧ s'.outs = t'.outs ∧ s'.nets = t'.nets)

/-! ### The outputs of a netlist -/

/-- R75: "each `out` expression is evaluated last". What a netlist gives under each `out` name, in order and with nothing else,
is the value of that line's expression on the names bound by the inputs and by ALL the statements; so in the evaluation of
the whole netlist and in the machine's last step, which reads those values, leaves nothing bound and changes nothing else,
and which goes on exactly when every `out` expression has a value. That it refuses otherwise, by the name of the first line
without one, is the model's choice (log 16, DESIGN CHOICE); no well-formed netlist meets it. For an input signal that is neither
0 nor 1 and that no unit reads, both clauses say that an `out` line gives that signal as an ordinary output and the
evaluation does not fault: that too is the model's choice (log 7, DESIGN CHOICE, unsafe), which R75 and R120 do not say. -/
def Obligations.OutputsAreTheirExpressions : Prop :=
  (∀ (n : Netlist) (inputs : List (List Signal)) (vs : List (NetName × List Signal)), evalNetlist n inputs = .next vs →
    ∃ nets, evalStmts (inputNets n inputs) n.stmts = .next nets ∧
      vs.map Prod.fst = n.outs.map OutDecl.name ∧
      ∀ (k : Nat) (o : OutDecl), n.outs[k]? = some o → ∃ v, vs[k]? = some (o.name, v) ∧ evalExpr nets o.expr = some v) ∧
  (∀ s : State, s.todo = [] → s.outs ≠ [] →
    ((∀ o ∈ s.outs, ∃ v, evalExpr s.nets o.expr = some v) → ∃ vs,
      step s = .next { s with outs := [], nets := [], result := some (.netlist vs) } ∧
      vs.map Prod.fst = s.outs.map OutDecl.name ∧
      ∀ (k : Nat) (o : OutDecl), s.outs[k]? = some o → ∃ v, vs[k]? = some (o.name, v) ∧ evalExpr s.nets o.expr = some v) ∧
    ∀ (pre post : List OutDecl) (o : OutDecl), s.outs = pre ++ o :: post →
      (∀ p ∈ pre, ∃ v, evalExpr s.nets p.expr = some v) → evalExpr s.nets o.expr = none →
      step s = .refused (.unresolved o.name))
end

