-- ==== Sys2Proof/Laws/Assoc.lean ====
section
/-! SUPPORT. Looking a name up in an association list. -/

namespace Sys2Proof

variable {α β : Type}

@[simp] theorem assoc_nil (n : NetName) : assoc ([] : List (NetName × α)) n = none := rfl

@[simp] theorem assoc_cons (m : NetName) (x : α) (l : List (NetName × α)) (n : NetName) :
    assoc ((m, x) :: l) n = if m = n then some x else assoc l n := rfl

theorem assoc_eq_none_iff (l : List (NetName × α)) (n : NetName) : assoc l n = none ↔ n ∉ l.map Prod.fst := by
  induction l with
  | nil => simp
  | cons p l ih =>
    obtain ⟨m, x⟩ := p
    by_cases h : m = n
    · simp [h]
    · simp [h, ih, Ne.symm h]

theorem mem_of_assoc {l : List (NetName × α)} {n : NetName} {x : α} (h : assoc l n = some x) : (n, x) ∈ l := by
  induction l with
  | nil => simp at h
  | cons p l ih =>
    obtain ⟨m, y⟩ := p
    by_cases hm : m = n
    · simp_all
    · simp only [assoc_cons, if_neg hm] at h
      exact List.mem_cons_of_mem _ (ih h)

theorem assoc_of_mem {l : List (NetName × α)} {n : NetName} {x : α} (hd : (l.map Prod.fst).Nodup) (h : (n, x) ∈ l) :
    assoc l n = some x := by
  induction l with
  | nil => simp at h
  | cons p l ih =>
    obtain ⟨m, y⟩ := p
    simp only [List.map_cons, List.nodup_cons] at hd
    rcases List.mem_cons.mp h with h | h
    · simp_all
    · have hne : m ≠ n := by
        rintro rfl
        exact hd.1 (List.mem_map_of_mem (f := Prod.fst) h)
      simp only [assoc_cons, if_neg hne]
      exact ih hd.2 h

/-- A name keeps its entry when the list grows at its end. -/
theorem assoc_append (l k : List (NetName × α)) (n : NetName) :
    assoc (l ++ k) n = match assoc l n with
      | some x => some x
      | none => assoc k n := by
  induction l with
  | nil => simp
  | cons p l ih =>
    obtain ⟨m, x⟩ := p
    by_cases h : m = n <;> simp [h, ih]

theorem assoc_append_of_some {l : List (NetName × α)} {n : NetName} {x : α} (k : List (NetName × α))
    (h : assoc l n = some x) : assoc (l ++ k) n = some x := by simp [assoc_append, h]

theorem assoc_append_of_none {l : List (NetName × α)} {n : NetName} (k : List (NetName × α))
    (h : assoc l n = none) : assoc (l ++ k) n = assoc k n := by simp [assoc_append, h]

theorem assoc_map (f : α → β) (l : List (NetName × α)) (n : NetName) :
    assoc (l.map fun p => (p.1, f p.2)) n = (assoc l n).map f := by
  induction l with
  | nil => simp
  | cons p l ih =>
    obtain ⟨m, x⟩ := p
    by_cases h : m = n <;> simp [h, ih]

end Sys2Proof
end

