-- ==== Sys2Proof/Laws/WellFormed.lean ====
section
/-! SUPPORT. What passing the six checks of R72 says, statement by statement. -/

namespace Sys2Proof

theorem failedChecks_eq_nil_iff {c : Ctx} {stmts : List Stmt} {outs : List OutDecl} :
    failedChecks c stmts outs = [] ↔ ∀ k, passes c stmts outs k = true := by
  constructor
  · intro h k
    have hk : k ∈ Check.all := by cases k <;> decide
    by_contra hf
    have : k ∈ failedChecks c stmts outs := List.mem_filter.mpr ⟨hk, by simpa using hf⟩
    rw [h] at this
    cases this
  · intro h
    simp [failedChecks, h]

theorem mem_failedChecks {c : Ctx} {stmts : List Stmt} {outs : List OutDecl} {k : Check} :
    k ∈ failedChecks c stmts outs ↔ passes c stmts outs k = false := by
  have hk : k ∈ Check.all := by cases k <;> decide
  simp [failedChecks, hk]

@[simp] theorem Ctx.push_names (c : Ctx) (st : Stmt) : (c.push st).map Prod.fst = c.map Prod.fst ++ [st.name] := by
  simp [Ctx.push]

/-- A statement whose arguments pass the checks in the context it sees. -/
structure Stmt.Checked (c : Ctx) (st : Stmt) : Prop where
  arity : st.args.length = st.unit.arity
  defined : ∀ e ∈ st.args, e.defined c = true
  fits : ∀ e ∈ st.args, e.fits c st.unit.inPortWidth = true
  indexed : ∀ e ∈ st.args, e.indexed c = true
  constants : ∀ e ∈ st.args, e.constants = true

/-- An output whose expression passes the checks. -/
structure OutDecl.Checked (c : Ctx) (o : OutDecl) : Prop where
  defined : o.expr.defined c = true
  indexed : o.expr.indexed c = true
  constants : o.expr.constants = true

/-- The six checks of a netlist with a statement left are the checks of the statement, its name's being new, and the six
checks of what follows it. -/
theorem passes_cons_iff {c : Ctx} {st : Stmt} {rest : List Stmt} {outs : List OutDecl} :
    (∀ k, passes c (st :: rest) outs k = true) ↔
      st.Checked c ∧ ∀ k, passes (c.push st) rest outs k = true := by
  constructor
  · intro h
    have h1 := h .singleAssignment
    have h2 := h .definedBeforeUse
    have h3 := h .arity
    have h4 := h .width
    have h5 := h .indexRange
    have h6 := h .constantRange
    simp only [passes, everywhere, List.all_cons, Bool.and_eq_true, List.all_eq_true, decide_eq_true_eq] at h1 h2 h3 h4 h5 h6
    refine ⟨⟨h3.1, h2.1, h4.1, h5.1, h6.1⟩, fun k => ?_⟩
    cases k
    · simpa [passes, List.append_assoc] using h1
    · exact h2.2
    · simpa [passes] using h3.2
    · exact h4.2
    · exact h5.2
    · exact h6.2
  · rintro ⟨hs, h⟩ k
    cases k
    · simpa [passes, List.append_assoc] using h .singleAssignment
    · simpa [passes, everywhere] using ⟨hs.defined, h .definedBeforeUse⟩
    · simpa [passes, hs.arity] using h .arity
    · simpa [passes, everywhere] using ⟨hs.fits, h .width⟩
    · simpa [passes, everywhere] using ⟨hs.indexed, h .indexRange⟩
    · simpa [passes, everywhere] using ⟨hs.constants, h .constantRange⟩

/-- With no statement left, the checks are those of the outputs. -/
theorem passes_nil {c : Ctx} {outs : List OutDecl} (h : ∀ k, passes c [] outs k = true) :
    ∀ o ∈ outs, o.Checked c := by
  intro o ho
  have h2 := h .definedBeforeUse
  have h5 := h .indexRange
  have h6 := h .constantRange
  simp only [passes, everywhere, List.all_eq_true] at h2 h5 h6
  exact ⟨h2 o ho, h5 o ho, h6 o ho⟩

/-- A statement's name is not bound before it. -/
theorem passes_fresh {c : Ctx} {st : Stmt} {rest : List Stmt} {outs : List OutDecl}
    (h : passes c (st :: rest) outs .singleAssignment = true) : st.name ∉ c.map Prod.fst := by
  simp only [passes, decide_eq_true_eq, List.map_cons] at h
  intro hm
  have := (List.nodup_append.mp (List.nodup_append.mp h).1).2.2 _ hm _ (List.mem_cons_self ..)
  exact this rfl

/-- With nothing left to check, every check passes. -/
theorem passes_empty (k : Check) : passes [] [] [] k = true := by
  cases k <;> rfl

end Sys2Proof
end

