-- ==== Sys2Proof/Laws/Demands.lean ====
section
/-! SUPPORT. What each check of one expression says of the expressions in it, and where a netlist's checks look. -/

namespace Sys2Proof

@[simp] theorem mem_subExprs_self (e : Expr) : e ∈ subExprs e := by
  cases e <;> simp [subExprs]

@[simp] theorem Netlist.ctxAfter_nil (n : Netlist) : n.ctxAfter [] = n.ctx := by simp [Netlist.ctxAfter]

theorem Netlist.ctxAfter_names (n : Netlist) (pre : List Stmt) :
    (n.ctxAfter pre).map Prod.fst = n.decls.map Decl.name ++ pre.map Stmt.name := by
  simp [Netlist.ctxAfter, Netlist.ctx, Function.comp_def]

/-- A check that looks everywhere holds of each argument in the context of the statements before it, and of each `out`
expression in the context of them all. -/
theorem everywhere_iff {arg : Ctx → UnitName → Expr → Bool} {out : Ctx → Expr → Bool} {c : Ctx} {stmts : List Stmt}
    {outs : List OutDecl} :
    everywhere arg out c stmts outs = true ↔
      (∀ pre st post, stmts = pre ++ st :: post → ∀ e ∈ st.args,
        arg (c ++ pre.map fun st => (st.name, .inst st.unit)) st.unit e = true) ∧
      ∀ o ∈ outs, out (c ++ stmts.map fun st => (st.name, .inst st.unit)) o.expr = true := by
  induction stmts generalizing c with
  | nil => simp [everywhere]
  | cons s rest ih =>
    simp only [everywhere, Bool.and_eq_true, List.all_eq_true, ih, Ctx.push, List.append_assoc, List.map_cons,
      List.singleton_append]
    refine ⟨fun ⟨h, hp, ho⟩ => ⟨fun pre st post heq => ?_, ho⟩, fun ⟨hp, ho⟩ => ⟨?_, fun pre st post heq => ?_, ho⟩⟩
    · cases pre with
      | nil =>
        obtain ⟨rfl, rfl⟩ := List.cons.inj heq
        simpa using h
      | cons q pre =>
        obtain ⟨rfl, heq⟩ := List.cons.inj heq
        simpa using hp pre st post (by simpa using heq)
    · simpa using hp [] s rest rfl
    · simpa using hp (s :: pre) st post (by simp [heq])

/-- The same in a netlist's own words: a check of one expression, the same for arguments and outputs. -/
theorem everywhere_places {check : Ctx → Expr → Bool} {n : Netlist} :
    everywhere (fun c _ => check c) check n.ctx n.stmts n.outs = true ↔
      ∀ pre e, n.places pre e → check (n.ctxAfter pre) e = true := by
  rw [everywhere_iff]
  constructor
  · rintro ⟨ha, ho⟩ pre e (⟨st, post, heq, he⟩ | ⟨rfl, o, hm, rfl⟩)
    · exact ha pre st post heq e he
    · exact ho o hm
  · intro h
    exact ⟨fun pre st post heq e he => h pre e (.inl ⟨st, post, heq, he⟩), fun o ho => h _ _ (.inr ⟨rfl, o, ho, rfl⟩)⟩

/-- Check 2: every reference is to an input or, through a port, to an instance of the context. -/
theorem Expr.defined_iff {c : Ctx} (e : Expr) : e.defined c = true ↔ ∀ x ∈ subExprs e,
    (∀ m, x = .name m → ∃ w, assoc c m = some (.input w)) ∧
    (∀ m p, x = .port m p → ∃ u, assoc c m = some (.inst u)) := by
  induction e using Expr.rec (motive_2 := fun ps => ps.defined c = true ↔ ∀ x ∈ subParts ps,
    (∀ m, x = .name m → ∃ w, assoc c m = some (.input w)) ∧
    (∀ m p, x = .port m p → ∃ u, assoc c m = some (.inst u))) with
  | name n => rcases h : assoc c n with _ | (w | u) <;> simp [Expr.defined, subExprs, h]
  | port n p => rcases h : assoc c n with _ | (w | u) <;> simp [Expr.defined, subExprs, h]
  | index e i ih => simp [Expr.defined, subExprs, ih]
  | slice e hi lo ih => simp [Expr.defined, subExprs, ih]
  | concat ps ih => simp [Expr.defined, subExprs, ih]
  | const1 n => simp [Expr.defined, subExprs]
  | const4d n => simp [Expr.defined, subExprs]
  | const4b ds => simp [Expr.defined, subExprs]
  | one e ih => simp [Parts.defined, subParts, ih]
  | more e ps ihe ihp => simp only [Parts.defined, subParts, Bool.and_eq_true, ihe, ihp, List.forall_mem_append]

/-- Check 6: every constant is in its range. -/
theorem Expr.constants_iff (e : Expr) : e.constants = true ↔ ∀ x ∈ subExprs e,
    (∀ k, x = .const1 k → k ≤ 1) ∧ (∀ k, x = .const4d k → k ≤ 15) ∧
    (∀ ds, x = .const4b ds → binaryValue ds ≤ 15) := by
  induction e using Expr.rec (motive_2 := fun ps => ps.constants = true ↔ ∀ x ∈ subParts ps,
    (∀ k, x = .const1 k → k ≤ 1) ∧ (∀ k, x = .const4d k → k ≤ 15) ∧
    (∀ ds, x = .const4b ds → binaryValue ds ≤ 15)) with
  | name n => simp [Expr.constants, subExprs]
  | port n p => simp [Expr.constants, subExprs]
  | index e i ih => simp [Expr.constants, subExprs, ih]
  | slice e hi lo ih => simp [Expr.constants, subExprs, ih]
  | concat ps ih => simp [Expr.constants, subExprs, ih]
  | const1 n => simp [Expr.constants, subExprs]
  | const4d n => simp [Expr.constants, subExprs, show Config.maxNibble = 15 from rfl]
  | const4b ds => simp [Expr.constants, subExprs, show Config.maxNibble = 15 from rfl]
  | one e ih => simp [Parts.constants, subParts, ih]
  | more e ps ihe ihp =>
    simp only [Parts.constants, subParts, Bool.and_eq_true, ihe, ihp, List.forall_mem_append]

/-- Where references and indices are good, an expression has a width. -/
theorem Expr.widthIn_of_checked {c : Ctx} (e : Expr) :
    e.defined c = true → e.indexed c = true → ∃ w, e.widthIn c = some w := by
  induction e using Expr.rec (motive_2 := fun ps =>
    ps.defined c = true → ps.indexed c = true → ∃ w, ps.widthIn c = some w) with
  | name n =>
    intro hd _
    rcases h : assoc c n with _ | (w | u) <;> simp [Expr.defined, Expr.widthIn, h] at hd ⊢
  | port n p =>
    intro hd _
    rcases h : assoc c n with _ | (w | u) <;> simp [Expr.defined, Expr.widthIn, h] at hd ⊢
  | index e i ih =>
    intro hd hi
    simp only [Expr.indexed, Bool.and_eq_true] at hi
    obtain ⟨w, hw⟩ := ih hd hi.1
    exact ⟨1, by simpa [Expr.widthIn, hw] using hi.2⟩
  | slice e hi lo ih =>
    intro hd hx
    simp only [Expr.indexed, Bool.and_eq_true] at hx
    obtain ⟨w, hw⟩ := ih hd hx.1
    exact ⟨hi - lo + 1, by simpa [Expr.widthIn, hw] using hx.2⟩
  | concat ps ih => exact fun hd hi => by simpa [Expr.widthIn] using ih hd hi
  | const1 n => exact fun _ _ => ⟨1, rfl⟩
  | const4d n => exact fun _ _ => ⟨_, rfl⟩
  | const4b ds => exact fun _ _ => ⟨_, rfl⟩
  | one e ih => rename_i hd hi; simpa [Parts.widthIn] using ih hd hi
  | more e ps ihe ihp =>
    rename_i hd hi
    simp only [Parts.defined, Parts.indexed, Bool.and_eq_true] at hd hi
    obtain ⟨w, hw⟩ := ihe hd.1 hi.1
    obtain ⟨v, hv⟩ := ihp hd.2 hi.2
    exact ⟨w + v, by simp [Parts.widthIn, hw, hv]⟩

/-- Check 5, where every reference is good: every index and slice lies inside its operand. -/
theorem Expr.indexed_iff {c : Ctx} (e : Expr) : e.defined c = true → (e.indexed c = true ↔ ∀ x ∈ subExprs e,
    (∀ y i, x = .index y i → ∃ w, y.widthIn c = some w ∧ i < w) ∧
    (∀ y hi lo, x = .slice y hi lo → ∃ w, y.widthIn c = some w ∧ lo ≤ hi ∧ hi < w)) := by
  induction e using Expr.rec (motive_2 := fun ps => ps.defined c = true → (ps.indexed c = true ↔ ∀ x ∈ subParts ps,
    (∀ y i, x = .index y i → ∃ w, y.widthIn c = some w ∧ i < w) ∧
    (∀ y hi lo, x = .slice y hi lo → ∃ w, y.widthIn c = some w ∧ lo ≤ hi ∧ hi < w))) with
  | name n => simp [Expr.indexed, subExprs]
  | port n p => simp [Expr.indexed, subExprs]
  | index e i ih =>
    intro hd
    have ih := ih hd
    by_cases he : e.indexed c = true
    · obtain ⟨w, hw⟩ := e.widthIn_of_checked hd he
      simp only [he, true_iff] at ih
      simpa [Expr.indexed, subExprs, he, hw] using fun _ => ih
    · simp only [he, false_iff, Bool.false_eq_true] at ih
      simp only [Expr.indexed, he, subExprs, List.forall_mem_cons, ih]
      simp
  | slice e hi lo ih =>
    intro hd
    have ih := ih hd
    by_cases he : e.indexed c = true
    · obtain ⟨w, hw⟩ := e.widthIn_of_checked hd he
      simp only [he, true_iff] at ih
      simpa [Expr.indexed, subExprs, he, hw] using fun _ _ => ih
    · simp only [he, false_iff, Bool.false_eq_true] at ih
      simp only [Expr.indexed, he, subExprs, List.forall_mem_cons, ih]
      simp
  | concat ps ih => intro hd; simp [Expr.indexed, subExprs, ih hd]
  | const1 n => simp [Expr.indexed, subExprs]
  | const4d n => simp [Expr.indexed, subExprs]
  | const4b ds => simp [Expr.indexed, subExprs]
  | one e ih => rename_i hd; simpa [Parts.indexed, subParts] using ih hd
  | more e ps ihe ihp =>
    rename_i hd
    simp only [Parts.defined, Bool.and_eq_true] at hd
    simp only [Parts.indexed, subParts, Bool.and_eq_true, ihe hd.1, ihp hd.2, List.forall_mem_append]

/-- A name of a context with no repeats is an input exactly when it is among the inputs. -/
theorem Netlist.assoc_input_iff {n : Netlist} {pre : List Stmt} (h : ((n.ctxAfter pre).map Prod.fst).Nodup)
    {m : NetName} : (∃ w, assoc (n.ctxAfter pre) m = some (.input w)) ↔ m ∈ n.decls.map Decl.name := by
  constructor
  · rintro ⟨w, hw⟩
    have := mem_of_assoc hw
    simp only [Netlist.ctxAfter, Netlist.ctx, List.mem_append, List.mem_map, Prod.mk.injEq, reduceCtorEq, and_false,
      exists_false, or_false] at this
    obtain ⟨d, hd, rfl, _⟩ := this
    exact List.mem_map_of_mem hd
  · intro hm
    obtain ⟨d, hd, rfl⟩ := List.mem_map.mp hm
    exact ⟨d.width.bits, assoc_of_mem h (List.mem_append_left _ (List.mem_map_of_mem (f := fun d : Decl => (d.name, NetType.input d.width.bits)) hd))⟩

/-- And an instance exactly when it is among the statements so far. -/
theorem Netlist.assoc_inst_iff {n : Netlist} {pre : List Stmt} (h : ((n.ctxAfter pre).map Prod.fst).Nodup)
    {m : NetName} : (∃ u, assoc (n.ctxAfter pre) m = some (.inst u)) ↔ m ∈ pre.map Stmt.name := by
  constructor
  · rintro ⟨u, hu⟩
    have := mem_of_assoc hu
    simp only [Netlist.ctxAfter, Netlist.ctx, List.mem_append, List.mem_map, Prod.mk.injEq, reduceCtorEq, and_false,
      exists_false, false_or] at this
    obtain ⟨st, hs, rfl, _⟩ := this
    exact List.mem_map_of_mem hs
  · intro hm
    obtain ⟨st, hs, rfl⟩ := List.mem_map.mp hm
    exact ⟨st.unit, assoc_of_mem h (List.mem_append_right _ (List.mem_map_of_mem (f := fun st : Stmt => (st.name, NetType.inst st.unit)) hs))⟩

end Sys2Proof
end

