-- ==== Sys2Proof/Laws/Operands.lean ====
section
/-! SUPPORT. What reading an operand gives. -/

namespace Sys2Proof.Machine

@[simp] theorem signalBit_bit (b : Bit) : signalBit (.bit b) = some b := rfl

theorem signalBit_eq_some {x : Signal} {b : Bit} : signalBit x = some b ↔ x = .bit b := by
  cases x <;> simp [signalBit]

theorem binarySignal_iff {x : Signal} : binarySignal x = true ↔ ∃ b, x = .bit b := by
  cases x <;> simp [binarySignal, signalBit]

@[simp] theorem integerBit_zero : integerBit 0 = some 0 := rfl
@[simp] theorem integerBit_one : integerBit 1 = some 1 := rfl

theorem integerBit_of_out {v : Int} (h : ¬(v = 0 ∨ v = 1)) : integerBit v = none := by
  simp only [not_or] at h
  simp [integerBit, h.1, h.2]

theorem integerNibble_of_out {v : Int} (h : ¬(0 ≤ v ∧ v ≤ 15)) : integerNibble v = none := by
  have h' : ¬(0 ≤ v ∧ v ≤ (Config.maxNibble : Int)) := h
  simp [integerNibble, h']

/-- A property of integers from 0 to 15 holds when it holds of each of the sixteen. -/
theorem forall_nibble_int {p : Int → Prop} (h : ∀ k : Fin 16, p (k.val : Int)) {v : Int} (h0 : 0 ≤ v) (h15 : v ≤ 15) :
    p v := by
  have := h ⟨v.toNat, by omega⟩
  simpa [Int.toNat_of_nonneg h0] using this

/-- In range, the nibble is the integer's own four bits. -/
theorem integerNibble_of_in {v : Int} (h0 : 0 ≤ v) (h15 : v ≤ 15) : integerNibble v = some (BitVec.ofInt 4 v) :=
  forall_nibble_int (p := fun v => integerNibble v = some (BitVec.ofInt 4 v)) (by decide) h0 h15

/-- Taking a nibble apart and putting it together again. -/
@[simp] theorem nibbleOf_nibbleBit (v : Nibble) :
    nibbleOf (nibbleBit v 3) (nibbleBit v 2) (nibbleBit v 1) (nibbleBit v 0) = v := by
  revert v; decide

@[simp] theorem nibbleBit_nibbleOf (b3 b2 b1 b0 : Bit) :
    nibbleBit (nibbleOf b3 b2 b1 b0) 3 = b3 ∧ nibbleBit (nibbleOf b3 b2 b1 b0) 2 = b2 ∧
      nibbleBit (nibbleOf b3 b2 b1 b0) 1 = b1 ∧ nibbleBit (nibbleOf b3 b2 b1 b0) 0 = b0 := by
  revert b3 b2 b1 b0; decide

@[simp] theorem signalNibble_driveNibble (v : Nibble) : signalNibble (driveNibble v) = some v := by
  simp [signalNibble, driveNibble]

theorem signalNibble_isSome (p : NibbleSignals) : (signalNibble p).isSome = binaryNibble p := by
  obtain ⟨b3, b2, b1, b0⟩ := p
  cases b3 <;> cases b2 <;> cases b1 <;> cases b0 <;> rfl

/-- Four signals that are 0 or 1 are a driven nibble. -/
theorem eq_driveNibble {p : NibbleSignals} {v : Nibble} (h : signalNibble p = some v) : p = driveNibble v := by
  obtain ⟨b3, b2, b1, b0⟩ := p
  cases b3 <;> cases b2 <;> cases b1 <;> cases b0 <;> simp [signalNibble, signalBit] at h
  subst h
  simp [driveNibble]

theorem resolveBit_of_eval {nets : List (NetName × Net)} {e : Expr} {x : Signal} (h : evalExpr nets e = some [x]) :
    resolveBit nets e = some x := by simp [resolveBit, h]

theorem resolveNibble_of_eval {nets : List (NetName × Net)} {e : Expr} {b0 b1 b2 b3 : Signal}
    (h : evalExpr nets e = some [b0, b1, b2, b3]) : resolveNibble nets e = some ⟨b3, b2, b1, b0⟩ := by
  simp [resolveNibble, h]

/-! An operand is in range exactly when the unit can take it. -/

theorem Operand.legal_signal (x : Signal) : (Operand.signals [x]).legal = (signalBit x).isSome := by
  simp [Operand.legal, binarySignal]

theorem Operand.legal_port4 (p : NibbleSignals) : (Operand.port4 p).legal = (signalNibble p).isSome := by
  obtain ⟨b3, b2, b1, b0⟩ := p
  cases b3 <;> cases b2 <;> cases b1 <;> cases b0 <;> rfl

theorem Operand.legal_bit (v : Int) : (Operand.bit v).legal = (integerBit v).isSome := by
  by_cases h0 : v = 0
  · subst h0; rfl
  · by_cases h1 : v = 1
    · subst h1; rfl
    · simp [Operand.legal, h0, h1, integerBit]

theorem Operand.legal_nibble (v : Int) : (Operand.nibble v).legal = (integerNibble v).isSome := by
  by_cases h : 0 ≤ v ∧ v ≤ 15
  · simp [Operand.legal, h, integerNibble_of_in h.1 h.2]
  · simp only [Operand.legal, h, decide_false, integerNibble_of_out h, Option.isSome_none]

/-- A statement's argument that a one-bit port can read is that port's signal. -/
theorem Operand.wire_of_resolveBit {nets : List (NetName × Net)} {e : Expr} {x : Signal}
    (h : resolveBit nets e = some x) : Operand.wire nets e = .signals [x] := by
  unfold resolveBit at h
  split at h <;> simp_all [Operand.wire]

/-- A statement's argument that a four-bit port can read is that port's signals. -/
theorem Operand.wire_of_resolveNibble {nets : List (NetName × Net)} {e : Expr} {p : NibbleSignals}
    (h : resolveNibble nets e = some p) : Operand.wire nets e = .port4 p := by
  unfold resolveNibble at h
  split at h
  · rename_i b0 b1 b2 b3 he
    obtain rfl := Option.some.inj h
    simp [Operand.wire, Operand.port4, he]
  · cases h

end Sys2Proof.Machine
end

