-- ==== Sys2Proof/Laws/State.lean ====
section
/-! SUPPORT. One lemma per field per update of the state. -/

namespace Sys2Proof.Machine

section
variable (s : State) (r : Result) (site : NetName) (o : Outputs)

@[simp] theorem State.read_requests : (s.read r).requests = s.requests := rfl
@[simp] theorem State.read_todo : (s.read r).todo = s.todo := rfl
@[simp] theorem State.read_outs : (s.read r).outs = s.outs := rfl
@[simp] theorem State.read_nets : (s.read r).nets = s.nets := rfl
@[simp] theorem State.read_result : (s.read r).result = some r := rfl
@[simp] theorem State.read_read (r' : Result) : (s.read r).read r' = s.read r' := rfl

@[simp] theorem State.bind_requests : (s.bind site o).requests = s.requests := rfl
@[simp] theorem State.bind_todo : (s.bind site o).todo = s.todo := rfl
@[simp] theorem State.bind_outs : (s.bind site o).outs = s.outs := rfl
@[simp] theorem State.bind_nets : (s.bind site o).nets = s.nets ++ [(site, .inst o)] := rfl
@[simp] theorem State.bind_result : (s.bind site o).result = s.result := rfl

end

@[simp] theorem State.reset_requests : State.reset.requests = [] := rfl
@[simp] theorem State.reset_todo : State.reset.todo = [] := rfl
@[simp] theorem State.reset_outs : State.reset.outs = [] := rfl
@[simp] theorem State.reset_nets : State.reset.nets = [] := rfl
@[simp] theorem State.reset_result : State.reset.result = none := rfl

end Sys2Proof.Machine
end

