-- ==== Sys2Proof/Laws/Ops.lean ====
section
/-! SUPPORT. What the shared operations can do, said once. -/

namespace Sys2Proof.Machine

variable {α : Type}

@[simp] theorem settle_ok (x : α) (k : α → State) : settle (.ok x) k = .next (k x) := rfl

@[simp] theorem settle_error (r : FaultRecord) (k : α → State) :
    settle (.error r : Except FaultRecord α) k = .fault (.preconditionViolation r) := rfl

/-- An evaluation that goes on had outputs. -/
theorem settle_next {e : Except FaultRecord α} {k : α → State} {t : State} (h : settle e k = .next t) :
    ∃ x, e = .ok x ∧ t = k x := by
  cases e with
  | error r => simp at h
  | ok x =>
    simp only [settle_ok, Host.Outcome.next.injEq] at h
    exact ⟨x, rfl, h.symm⟩

/-- An evaluation that faults had an offending operand. -/
theorem settle_fault {e : Except FaultRecord α} {k : α → State} {f : Fault} (h : settle e k = .fault f) :
    ∃ r, e = .error r ∧ f = .preconditionViolation r := by
  cases e with
  | ok x => simp at h
  | error r =>
    simp only [settle_error, Host.Outcome.fault.injEq] at h
    exact ⟨r, rfl, h.symm⟩

/-- There is no third outcome (R120). -/
theorem settle_not_refused (e : Except FaultRecord α) (k : α → State) (r : Refusal) : settle e k ≠ .refused r := by
  cases e <;> simp

theorem State.binds_eq_false {s : State} {n : NetName} : s.binds n = false ↔ assoc s.nets n = none := by
  simp [State.binds]

theorem instantiate_of_new {site : NetName} {s : State} (e : Except FaultRecord Outputs)
    (h : assoc s.nets site = none) : instantiate site e s = settle e fun o => s.bind site o := by
  simp [instantiate, State.binds, h]

/-- A statement that goes on binds its own name, for the first time, to outputs of its unit's function. -/
theorem instantiate_next {site : NetName} {e : Except FaultRecord Outputs} {s t : State}
    (h : instantiate site e s = .next t) : assoc s.nets site = none ∧ ∃ o, e = .ok o ∧ t = s.bind site o := by
  by_cases hb : s.binds site = true
  · simp [instantiate, hb] at h
  · have hn := State.binds_eq_false.mp (by simpa using hb)
    rw [instantiate_of_new e hn] at h
    exact ⟨hn, settle_next h⟩

theorem instantiate_fault {site : NetName} {e : Except FaultRecord Outputs} {s : State} {f : Fault}
    (h : instantiate site e s = .fault f) :
    assoc s.nets site = none ∧ ∃ r, e = .error r ∧ f = .preconditionViolation r := by
  by_cases hb : s.binds site = true
  · simp [instantiate, hb] at h
  · have hn := State.binds_eq_false.mp (by simpa using hb)
    rw [instantiate_of_new e hn] at h
    exact ⟨hn, settle_fault h⟩

end Sys2Proof.Machine
end

