-- ==== Sys2Proof/Laws/Units.lean ====
section
/-! SUPPORT. What each unit's evaluation can give, and what `exec` is made of: an evaluation given at its ports or as
integers is `settle` of an outcome that no state enters; a statement is `instantiate` of one. -/

namespace Sys2Proof.Machine

/-- The record is one that R123 describes for a unit at a level and a site. -/
structure RecordFits (u : UnitName) (l : Level) (site : Option NetName) (r : FaultRecord) : Prop where
  unit : r.unit = u
  level : r.level = l
  site : r.site = site
  nonempty : r.ports ≠ []
  inOrder : r.ports.Sublist u.inPorts
  integerValues : l = .integer → ∃ vs, r.values = some vs ∧ vs.length = r.ports.length
  portValues : l = .port → r.values = none

/-- The record of the ports fits when the operands are the unit's ports in order and one of them offends. -/
theorem portFault_fits {u : UnitName} (site : Option NetName) {l : List (PortName × Bool)}
    (hl : l.map Prod.fst = u.inPorts) (hb : ∃ p ∈ l, p.2 = true) : RecordFits u .port site (portFault u site l) where
  unit := rfl
  level := rfl
  site := rfl
  nonempty := by
    obtain ⟨p, hp, h⟩ := hb
    exact List.ne_nil_of_mem (List.mem_map_of_mem (List.mem_filter.mpr ⟨hp, h⟩))
  inOrder := hl ▸ List.filter_sublist.map Prod.fst
  integerValues := by simp
  portValues := fun _ => rfl

/-- The record of the integers fits likewise. -/
theorem integerFault_fits {u : UnitName} {l : List (PortName × Int × Bool)}
    (hl : l.map Prod.fst = u.inPorts) (hb : ∃ p ∈ l, p.2.2 = true) :
    RecordFits u .integer none (integerFault u l) where
  unit := rfl
  level := rfl
  site := rfl
  nonempty := by
    obtain ⟨p, hp, h⟩ := hb
    exact List.ne_nil_of_mem (List.mem_map_of_mem (List.mem_filter.mpr ⟨hp, h⟩))
  inOrder := hl ▸ List.filter_sublist.map Prod.fst
  integerValues := fun _ => ⟨_, rfl, by simp [integerFault]⟩
  portValues := by simp

/-- HA at the ports: outputs when both signals are bits, else the record. -/
theorem haPort_cases (site : Option NetName) (a b : Signal) :
    (∃ x y, a = .bit x ∧ b = .bit y ∧ haPort site a b = .ok (.ha (halfAdd x y))) ∨
    (∃ r, (binarySignal a && binarySignal b) = false ∧ haPort site a b = .error r ∧ RecordFits .ha .port site r) := by
  simp only [binarySignal]
  cases ha : signalBit a <;> cases hb : signalBit b
  case some.some x y => exact .inl ⟨x, y, signalBit_eq_some.mp ha, signalBit_eq_some.mp hb, by simp [haPort, ha, hb]⟩
  all_goals
    refine .inr ⟨_, rfl, by simp only [haPort, ha, hb]; rfl, ?_⟩
    exact portFault_fits site rfl (by simp)

/-- FA at the ports. -/
theorem faPort_cases (site : Option NetName) (a b c : Signal) :
    (∃ x y z, a = .bit x ∧ b = .bit y ∧ c = .bit z ∧ faPort site a b c = .ok (.fa (fullAdd x y z))) ∨
    (∃ r, (binarySignal a && binarySignal b && binarySignal c) = false ∧ faPort site a b c = .error r ∧
      RecordFits .fa .port site r) := by
  simp only [binarySignal]
  cases ha : signalBit a <;> cases hb : signalBit b <;> cases hc : signalBit c
  case some.some.some x y z =>
    exact .inl ⟨x, y, z, signalBit_eq_some.mp ha, signalBit_eq_some.mp hb, signalBit_eq_some.mp hc, by
      simp [faPort, ha, hb, hc]⟩
  all_goals
    refine .inr ⟨_, rfl, by simp only [faPort, ha, hb, hc]; rfl, ?_⟩
    exact portFault_fits site rfl (by simp)

/-- RCA4 at the ports. -/
theorem rca4Port_cases (site : Option NetName) (a b : NibbleSignals) :
    (∃ x y, a = driveNibble x ∧ b = driveNibble y ∧ rca4Port site a b = .ok (.rca4 (rippleAdd x y))) ∨
    (∃ r, (binaryNibble a && binaryNibble b) = false ∧ rca4Port site a b = .error r ∧
      RecordFits .rca4 .port site r) := by
  rw [← signalNibble_isSome a, ← signalNibble_isSome b]
  cases ha : signalNibble a <;> cases hb : signalNibble b
  case some.some x y => exact .inl ⟨x, y, eq_driveNibble ha, eq_driveNibble hb, by simp [rca4Port, ha, hb]⟩
  all_goals
    refine .inr ⟨_, rfl, by simp only [rca4Port, ha, hb]; rfl, ?_⟩
    exact portFault_fits site rfl (by simp)

theorem integerBit_eq_none_iff {v : Int} : integerBit v = none ↔ ¬(v = 0 ∨ v = 1) := by
  constructor
  · rintro h (rfl | rfl) <;> simp at h
  · exact integerBit_of_out

theorem integerNibble_eq_none_iff {v : Int} : integerNibble v = none ↔ ¬(0 ≤ v ∧ v ≤ 15) := by
  refine ⟨fun h hv => ?_, integerNibble_of_out⟩
  rw [integerNibble_of_in hv.1 hv.2] at h
  cases h

/-- HalfAdder. -/
theorem haInteger_cases (a b : Int) :
    ((a = 0 ∨ a = 1) ∧ (b = 0 ∨ b = 1) ∧ ∃ p, haInteger a b = .ok p) ∨
    (¬((a = 0 ∨ a = 1) ∧ (b = 0 ∨ b = 1)) ∧ ∃ r, haInteger a b = .error r ∧ RecordFits .ha .integer none r) := by
  have na := @integerBit_eq_none_iff a
  have nb := @integerBit_eq_none_iff b
  cases ha : integerBit a <;> cases hb : integerBit b <;>
    simp only [ha, hb, reduceCtorEq, true_iff, false_iff, not_not] at na nb
  case some.some => exact .inl ⟨na, nb, _, by simp only [haInteger, ha, hb]; rfl⟩
  all_goals
    refine .inr ⟨fun h => by simp_all, _, by simp only [haInteger, ha, hb]; rfl, ?_⟩
    exact integerFault_fits rfl (by simp)

/-- FullAdder. -/
theorem faInteger_cases (a b c : Int) :
    ((a = 0 ∨ a = 1) ∧ (b = 0 ∨ b = 1) ∧ (c = 0 ∨ c = 1) ∧ ∃ p, faInteger a b c = .ok p) ∨
    (¬((a = 0 ∨ a = 1) ∧ (b = 0 ∨ b = 1) ∧ (c = 0 ∨ c = 1)) ∧
      ∃ r, faInteger a b c = .error r ∧ RecordFits .fa .integer none r) := by
  have na := @integerBit_eq_none_iff a
  have nb := @integerBit_eq_none_iff b
  have nc := @integerBit_eq_none_iff c
  cases ha : integerBit a <;> cases hb : integerBit b <;> cases hc : integerBit c <;>
    simp only [ha, hb, hc, reduceCtorEq, true_iff, false_iff, not_not] at na nb nc
  case some.some.some => exact .inl ⟨na, nb, nc, _, by simp only [faInteger, ha, hb, hc]; rfl⟩
  all_goals
    refine .inr ⟨fun h => by simp_all, _, by simp only [faInteger, ha, hb, hc]; rfl, ?_⟩
    exact integerFault_fits rfl (by simp)

/-- RippleCarryAdder. -/
theorem rca4Integer_cases (a b : Int) :
    ((0 ≤ a ∧ a ≤ 15) ∧ (0 ≤ b ∧ b ≤ 15) ∧ ∃ p, rca4Integer a b = .ok p) ∨
    (¬((0 ≤ a ∧ a ≤ 15) ∧ (0 ≤ b ∧ b ≤ 15)) ∧ ∃ r, rca4Integer a b = .error r ∧ RecordFits .rca4 .integer none r) := by
  have na := @integerNibble_eq_none_iff a
  have nb := @integerNibble_eq_none_iff b
  cases ha : integerNibble a <;> cases hb : integerNibble b <;>
    simp only [ha, hb, reduceCtorEq, true_iff, false_iff, not_not] at na nb
  case some.some => exact .inl ⟨na, nb, _, by simp only [rca4Integer, ha, hb]; rfl⟩
  all_goals
    refine .inr ⟨fun h => by first | exact na h.1 | exact nb h.2, _, by simp only [rca4Integer, ha, hb]; rfl, ?_⟩
    exact integerFault_fits rfl (by simp)

/-- An operation that is no statement is `settle` of an outcome in which no state enters: a result exactly when its
operands are in range, else a record of R123. -/
theorem exec_direct {i : Instr} (h : siteOf i = none) :
    (inRange i = true ∧ ∃ r : Result, ∀ s, exec i s = .next (s.read r)) ∨
    (inRange i = false ∧ ∃ r : FaultRecord, (∀ s, exec i s = .fault (.preconditionViolation r)) ∧
      RecordFits i.unit (levelOf i) none r) := by
  cases i with
  | ha o =>
    cases o with
    | wired => simp [siteOf] at h
    | port a b =>
      rcases haPort_cases none a b with ⟨x, y, rfl, rfl, e⟩ | ⟨r, hr, e, fits⟩
      · exact .inl ⟨rfl, _, fun s => by simp only [exec, execHa, e]; rfl⟩
      · exact .inr ⟨hr, r, fun s => by simp only [exec, execHa, e]; rfl, fits⟩
    | integer a b =>
      rcases haInteger_cases a b with ⟨ha, hb, p, e⟩ | ⟨hr, r, e, fits⟩
      · exact .inl ⟨decide_eq_true ⟨ha, hb⟩, _, fun s => by simp only [exec, execHa, e]; rfl⟩
      · exact .inr ⟨decide_eq_false hr, r, fun s => by simp only [exec, execHa, e]; rfl, fits⟩
  | fa o =>
    cases o with
    | wired => simp [siteOf] at h
    | port a b c =>
      rcases faPort_cases none a b c with ⟨x, y, z, rfl, rfl, rfl, e⟩ | ⟨r, hr, e, fits⟩
      · exact .inl ⟨rfl, _, fun s => by simp only [exec, execFa, e]; rfl⟩
      · exact .inr ⟨hr, r, fun s => by simp only [exec, execFa, e]; rfl, fits⟩
    | integer a b c =>
      rcases faInteger_cases a b c with ⟨ha, hb, hc, p, e⟩ | ⟨hr, r, e, fits⟩
      · exact .inl ⟨decide_eq_true ⟨ha, hb, hc⟩, _, fun s => by simp only [exec, execFa, e]; rfl⟩
      · exact .inr ⟨decide_eq_false hr, r, fun s => by simp only [exec, execFa, e]; rfl, fits⟩
  | rca4 o =>
    cases o with
    | wired => simp [siteOf] at h
    | port a b =>
      rcases rca4Port_cases none a b with ⟨x, y, rfl, rfl, e⟩ | ⟨r, hr, e, fits⟩
      · refine .inl ⟨?_, _, fun s => by simp only [exec, execRca4, e]; rfl⟩
        simp [inRange, ← signalNibble_isSome]
      · exact .inr ⟨hr, r, fun s => by simp only [exec, execRca4, e]; rfl, fits⟩
    | integer a b =>
      rcases rca4Integer_cases a b with ⟨ha, hb, p, e⟩ | ⟨hr, r, e, fits⟩
      · exact .inl ⟨decide_eq_true ⟨ha, hb⟩, _, fun s => by simp only [exec, execRca4, e]; rfl⟩
      · exact .inr ⟨decide_eq_false hr, r, fun s => by simp only [exec, execRca4, e]; rfl, fits⟩

/-- A statement whose arguments have values is `instantiate` of its unit's outcome on them; else it is refused. -/
theorem exec_statement {i : Instr} {site : NetName} (h : siteOf i = some site) (s : State) :
    exec i s = .refused (.unresolved site) ∨
    ∃ e, exec i s = instantiate site e s ∧
      ((∃ o, e = .ok o ∧ o.unit = i.unit) ∨ ∃ r, e = .error r ∧ RecordFits i.unit (levelOf i) (some site) r) := by
  cases i with
  | ha o =>
    cases o with
    | port => simp [siteOf] at h
    | integer => simp [siteOf] at h
    | wired n a b =>
      obtain rfl : n = site := by simpa [siteOf] using h
      cases ra : resolveBit s.nets a <;> cases rb : resolveBit s.nets b
      case some.some x y =>
        refine .inr ⟨haPort (some n) x y, by simp only [exec, execHa, ra, rb], ?_⟩
        rcases haPort_cases (some n) x y with ⟨_, _, _, _, e⟩ | ⟨r, _, e, fits⟩
        · exact .inl ⟨_, e, rfl⟩
        · exact .inr ⟨r, e, fits⟩
      all_goals exact .inl (by simp only [exec, execHa, ra, rb])
  | fa o =>
    cases o with
    | port => simp [siteOf] at h
    | integer => simp [siteOf] at h
    | wired n a b c =>
      obtain rfl : n = site := by simpa [siteOf] using h
      cases ra : resolveBit s.nets a <;> cases rb : resolveBit s.nets b <;> cases rc : resolveBit s.nets c
      case some.some.some x y z =>
        refine .inr ⟨faPort (some n) x y z, by simp only [exec, execFa, ra, rb, rc], ?_⟩
        rcases faPort_cases (some n) x y z with ⟨_, _, _, _, _, _, e⟩ | ⟨r, _, e, fits⟩
        · exact .inl ⟨_, e, rfl⟩
        · exact .inr ⟨r, e, fits⟩
      all_goals exact .inl (by simp only [exec, execFa, ra, rb, rc])
  | rca4 o =>
    cases o with
    | port => simp [siteOf] at h
    | integer => simp [siteOf] at h
    | wired n a b =>
      obtain rfl : n = site := by simpa [siteOf] using h
      cases ra : resolveNibble s.nets a <;> cases rb : resolveNibble s.nets b
      case some.some x y =>
        refine .inr ⟨rca4Port (some n) x y, by simp only [exec, execRca4, ra, rb], ?_⟩
        rcases rca4Port_cases (some n) x y with ⟨_, _, _, _, e⟩ | ⟨r, _, e, fits⟩
        · exact .inl ⟨_, e, rfl⟩
        · exact .inr ⟨r, e, fits⟩
      all_goals exact .inl (by simp only [exec, execRca4, ra, rb])

end Sys2Proof.Machine
end

