-- ==== Sys2Proof/Laws/Netlist.lean ====
section
/-! SUPPORT. Expressions and statements that pass the checks of R72 have values: the checks are made of types only, and
here they meet the values bound in an evaluation. -/

namespace Sys2Proof.Machine

open Sys2Proof

theorem assoc_netTypes (nets : List (NetName × Net)) (n : NetName) :
    assoc (netTypes nets) n = (assoc nets n).map netType := assoc_map netType nets n

@[simp] theorem netTypes_names (nets : List (NetName × Net)) : (netTypes nets).map Prod.fst = nets.map Prod.fst := by
  simp [netTypes]

theorem netTypes_bind (nets : List (NetName × Net)) {st : Stmt} {o : Outputs} (h : o.unit = st.unit) :
    netTypes (nets ++ [(st.name, .inst o)]) = (netTypes nets).push st := by
  simp [netTypes, Ctx.push, netType, h]

@[simp] theorem Outputs.signals_length (o : Outputs) (p : OutPort) :
    (o.signals p).length = o.unit.outPortWidth p := by
  cases o <;> cases p <;> rfl

@[simp] theorem numberSignals_length (w n : Nat) : (numberSignals w n).length = w := by simp [numberSignals]

/-- An expression that passes the checks has a width, and a value of that width. -/
theorem evalExpr_of_checked (nets : List (NetName × Net)) (e : Expr) :
    e.defined (netTypes nets) = true → e.indexed (netTypes nets) = true → e.constants = true →
      ∃ v, evalExpr nets e = some v ∧ e.widthIn (netTypes nets) = some v.length := by
  induction e using Expr.rec (motive_2 := fun ps =>
    ps.defined (netTypes nets) = true → ps.indexed (netTypes nets) = true → ps.constants = true →
      ∃ v, evalParts nets ps = some v ∧ ps.widthIn (netTypes nets) = some v.length) with
  | name n =>
    intro hd _ _
    simp only [Expr.defined, assoc_netTypes] at hd
    rcases ha : assoc nets n with _ | (v | o) <;> simp [ha, netType] at hd
    exact ⟨v, by simp [evalExpr, ha], by simp [Expr.widthIn, assoc_netTypes, ha, netType]⟩
  | port n p =>
    intro hd _ _
    simp only [Expr.defined, assoc_netTypes] at hd
    rcases ha : assoc nets n with _ | (v | o) <;> simp [ha, netType] at hd
    exact ⟨o.signals p, by simp [evalExpr, ha], by simp [Expr.widthIn, assoc_netTypes, ha, netType]⟩
  | index e i ih =>
    intro hd hi hc
    simp only [Expr.indexed, Bool.and_eq_true] at hi
    obtain ⟨v, hv, hw⟩ := ih hd hi.1 hc
    have hlt : i < v.length := by simpa [hw] using hi.2
    exact ⟨[v[i]], by simp [evalExpr, hv, List.getElem?_eq_getElem hlt], by simp [Expr.widthIn, hw, hlt]⟩
  | slice e hi lo ih =>
    intro hd hx hc
    simp only [Expr.indexed, Bool.and_eq_true] at hx
    obtain ⟨v, hv, hw⟩ := ih hd hx.1 hc
    have hr : lo ≤ hi ∧ hi < v.length := by simpa [hw] using hx.2
    refine ⟨(v.drop lo).take (hi - lo + 1), by simp [evalExpr, hv, hr], ?_⟩
    have : hi - lo + 1 ≤ v.length - lo := by omega
    simp [Expr.widthIn, hw, hr, this]
  | concat ps ih =>
    intro hd hi hc
    obtain ⟨v, hv, hw⟩ := ih hd hi hc
    exact ⟨v, by simpa [evalExpr] using hv, by simpa [Expr.widthIn] using hw⟩
  | const1 n =>
    intro _ _ hc
    have : n ≤ 1 := by simpa [Expr.constants] using hc
    exact ⟨numberSignals 1 n, by simp [evalExpr, this], by simp [Expr.widthIn]⟩
  | const4d n =>
    intro _ _ hc
    have : n ≤ Config.maxNibble := by simpa [Expr.constants] using hc
    exact ⟨numberSignals Config.nibbleWidth n, by simp [evalExpr, this], by simp [Expr.widthIn]⟩
  | const4b ds =>
    intro _ _ hc
    have : binaryValue ds ≤ Config.maxNibble := by simpa [Expr.constants] using hc
    exact ⟨numberSignals Config.nibbleWidth (binaryValue ds), by simp [evalExpr, this], by simp [Expr.widthIn]⟩
  | one e ih =>
    rename_i hd hi hc
    obtain ⟨v, hv, hw⟩ := ih hd hi hc
    exact ⟨v, by simpa [evalParts] using hv, by simpa [Parts.widthIn] using hw⟩
  | more e ps ihe ihp =>
    rename_i hd hi hc
    simp only [Parts.defined, Parts.indexed, Parts.constants, Bool.and_eq_true] at hd hi hc
    obtain ⟨v, hv, hw⟩ := ihe hd.1 hi.1 hc.1
    obtain ⟨l, hl, hx⟩ := ihp hd.2 hi.2 hc.2
    exact ⟨l ++ v, by simp [evalParts, hv, hl], by simp [Parts.widthIn, hw, hx, Nat.add_comm]⟩

/-- An argument that passes the checks has a value of its port's width. -/
theorem argument_of_checked {nets : List (NetName × Net)} {w : Nat} {e : Expr} (hd : e.defined (netTypes nets) = true)
    (hf : e.fits (netTypes nets) w = true) (hi : e.indexed (netTypes nets) = true) (hc : e.constants = true) :
    ∃ v, evalExpr nets e = some v ∧ v.length = w := by
  obtain ⟨v, hv, hw⟩ := evalExpr_of_checked nets e hd hi hc
  exact ⟨v, hv, by simpa [Expr.fits, hw] using hf⟩

/-- What one statement that passes the checks does, in the machine and in the evaluation of a whole netlist alike: the
outputs of its unit are bound to its name, or its unit faults with the statement as the site. -/
theorem statement_of_checked {nets : List (NetName × Net)} {st : Stmt} (h : st.Checked (netTypes nets))
    (hn : assoc nets st.name = none) :
    ∃ i, decode (.wired st) = .ok i ∧
      ((∃ o, o.unit = st.unit ∧ evalStmt nets st = .next o ∧
          ∀ s : State, s.nets = nets → exec i s = .next (s.bind st.name o)) ∨
       (∃ r, RecordFits st.unit .port (some st.name) r ∧ evalStmt nets st = .fault (.preconditionViolation r) ∧
          ∀ s : State, s.nets = nets → exec i s = .fault (.preconditionViolation r))) := by
  obtain ⟨name, u, args⟩ := st
  obtain ⟨har, hd, hf, hi, hc⟩ := h
  have arg : ∀ e ∈ args, ∃ v, evalExpr nets e = some v ∧ v.length = u.inPortWidth := fun e he =>
    argument_of_checked (hd e he) (hf e he) (hi e he) (hc e he)
  cases u with
  | ha =>
    obtain ⟨ea, eb, rfl⟩ := List.length_eq_two.mp har
    obtain ⟨va, ha, la⟩ := arg ea (by simp)
    obtain ⟨vb, hb, lb⟩ := arg eb (by simp)
    obtain ⟨x, rfl⟩ := List.length_eq_one_iff.mp la
    obtain ⟨y, rfl⟩ := List.length_eq_one_iff.mp lb
    have ex : ∀ s : State, s.nets = nets →
        exec (.ha (.wired name ea eb)) s = settle (haPort (some name) x y) fun o => s.bind name o := by
      rintro s rfl
      simp only [exec, execHa, resolveBit_of_eval ha, resolveBit_of_eval hb]
      exact instantiate_of_new _ hn
    refine ⟨_, rfl, ?_⟩
    rcases haPort_cases (some name) x y with ⟨p, q, _, _, e⟩ | ⟨r, _, e, fits⟩
    · exact .inl ⟨.ha (halfAdd p q), rfl, by simp [evalStmt, List.mapM_cons, ha, hb, unitAt, e], fun s hs => by rw [ex s hs, e]; rfl⟩
    · exact .inr ⟨r, fits, by simp [evalStmt, List.mapM_cons, ha, hb, unitAt, e], fun s hs => by rw [ex s hs, e]; rfl⟩
  | fa =>
    obtain ⟨ea, eb, ec, rfl⟩ := List.length_eq_three.mp har
    obtain ⟨va, ha, la⟩ := arg ea (by simp)
    obtain ⟨vb, hb, lb⟩ := arg eb (by simp)
    obtain ⟨vc, hc', lc⟩ := arg ec (by simp)
    obtain ⟨x, rfl⟩ := List.length_eq_one_iff.mp la
    obtain ⟨y, rfl⟩ := List.length_eq_one_iff.mp lb
    obtain ⟨z, rfl⟩ := List.length_eq_one_iff.mp lc
    have ex : ∀ s : State, s.nets = nets →
        exec (.fa (.wired name ea eb ec)) s = settle (faPort (some name) x y z) fun o => s.bind name o := by
      rintro s rfl
      simp only [exec, execFa, resolveBit_of_eval ha, resolveBit_of_eval hb, resolveBit_of_eval hc']
      exact instantiate_of_new _ hn
    refine ⟨_, rfl, ?_⟩
    rcases faPort_cases (some name) x y z with ⟨p, q, r, _, _, _, e⟩ | ⟨r, _, e, fits⟩
    · exact .inl ⟨.fa (fullAdd p q r), rfl, by simp [evalStmt, List.mapM_cons, ha, hb, hc', unitAt, e], fun s hs => by rw [ex s hs, e]; rfl⟩
    · exact .inr ⟨r, fits, by simp [evalStmt, List.mapM_cons, ha, hb, hc', unitAt, e], fun s hs => by rw [ex s hs, e]; rfl⟩
  | rca4 =>
    obtain ⟨ea, eb, rfl⟩ := List.length_eq_two.mp har
    obtain ⟨va, ha, la⟩ := arg ea (by simp)
    obtain ⟨vb, hb, lb⟩ := arg eb (by simp)
    match va, la, vb, lb with
    | [a0, a1, a2, a3], _, [b0, b1, b2, b3], _ =>
      have ex : ∀ s : State, s.nets = nets →
          exec (.rca4 (.wired name ea eb)) s =
            settle (rca4Port (some name) ⟨a3, a2, a1, a0⟩ ⟨b3, b2, b1, b0⟩) fun o => s.bind name o := by
        rintro s rfl
        simp only [exec, execRca4, resolveNibble_of_eval ha, resolveNibble_of_eval hb]
        exact instantiate_of_new _ hn
      refine ⟨_, rfl, ?_⟩
      rcases rca4Port_cases (some name) ⟨a3, a2, a1, a0⟩ ⟨b3, b2, b1, b0⟩ with ⟨p, q, _, _, e⟩ | ⟨r, _, e, fits⟩
      · exact .inl ⟨.rca4 (rippleAdd p q), rfl, by simp [evalStmt, List.mapM_cons, ha, hb, unitAt, e], fun s hs => by rw [ex s hs, e]; rfl⟩
      · exact .inr ⟨r, fits, by simp [evalStmt, List.mapM_cons, ha, hb, unitAt, e], fun s hs => by rw [ex s hs, e]; rfl⟩

/-- A value among those of a statement's arguments is the value of one of them. -/
theorem mem_of_mapM {nets : List (NetName × Net)} {args : List Expr} {vs : List (List Signal)}
    (h : args.mapM (evalExpr nets) = some vs) {v : List Signal} (hv : v ∈ vs) : ∃ e ∈ args, evalExpr nets e = some v := by
  induction args generalizing vs with
  | nil =>
    obtain rfl : [] = vs := by simpa using h
    simp at hv
  | cons a as ih =>
    rw [List.mapM_cons] at h
    simp only [Option.bind_eq_bind, Option.bind_eq_some_iff, Option.pure_def, Option.some.injEq] at h
    obtain ⟨w, hw, ws, hws, rfl⟩ := h
    rcases List.mem_cons.mp hv with rfl | hv
    · exact ⟨a, List.mem_cons_self .., hw⟩
    · obtain ⟨e, he, h⟩ := ih hws hv
      exact ⟨e, List.mem_cons_of_mem _ he, h⟩

/-- A unit on argument values of its own number and width gives outputs when they are all bits, else a record. -/
theorem unitAt_cases {site : NetName} {u : UnitName} {vs : List (List Signal)} {e : Except FaultRecord Outputs}
    (h : unitAt site u vs = some e) :
    (∃ o, e = .ok o ∧ o.unit = u ∧ ∀ v ∈ vs, ∀ x ∈ v, binarySignal x = true) ∨
    (∃ r, e = .error r ∧ RecordFits u .port (some site) r ∧ ¬∀ v ∈ vs, ∀ x ∈ v, binarySignal x = true) := by
  unfold unitAt at h
  split at h
  · rename_i a b
    obtain rfl := Option.some.inj h
    rcases haPort_cases (some site) a b with ⟨x, y, rfl, rfl, e⟩ | ⟨r, hr, e, fits⟩
    · exact .inl ⟨_, e, rfl, by simp [binarySignal]⟩
    · exact .inr ⟨r, e, fits, fun hall => by simp_all⟩
  · rename_i a b c
    obtain rfl := Option.some.inj h
    rcases faPort_cases (some site) a b c with ⟨x, y, z, rfl, rfl, rfl, e⟩ | ⟨r, hr, e, fits⟩
    · exact .inl ⟨_, e, rfl, by simp [binarySignal]⟩
    · exact .inr ⟨r, e, fits, fun hall => by simp_all⟩
  · rename_i a0 a1 a2 a3 b0 b1 b2 b3
    obtain rfl := Option.some.inj h
    rcases rca4Port_cases (some site) ⟨a3, a2, a1, a0⟩ ⟨b3, b2, b1, b0⟩ with ⟨x, y, hx, hy, e⟩ | ⟨r, hr, e, fits⟩
    · refine .inl ⟨_, e, rfl, ?_⟩
      simp only [driveNibble, NibbleSignals.mk.injEq] at hx hy
      simp [hx, hy, binarySignal]
    · exact .inr ⟨r, e, fits, fun hall => by simp_all [binaryNibble]⟩
  · cases h

/-- What one statement's evaluation can give. -/
theorem evalStmt_cases (nets : List (NetName × Net)) (st : Stmt) :
    evalStmt nets st = .refused (.unresolved st.name) ∨
    ∃ vs, st.args.mapM (evalExpr nets) = some vs ∧
      ((∃ o, unitAt st.name st.unit vs = some (.ok o) ∧ evalStmt nets st = .next o) ∨
       (∃ r, unitAt st.name st.unit vs = some (.error r) ∧
         evalStmt nets st = .fault (.preconditionViolation r))) := by
  cases hv : st.args.mapM (evalExpr nets) with
  | none => exact .inl (by simp [evalStmt, hv])
  | some vs =>
    rcases hu : unitAt st.name st.unit vs with _ | (r | o)
    · exact .inl (by simp [evalStmt, hv, hu])
    · exact .inr ⟨vs, rfl, .inr ⟨r, hu, by simp [evalStmt, hv, hu]⟩⟩
    · exact .inr ⟨vs, rfl, .inl ⟨o, hu, by simp [evalStmt, hv, hu]⟩⟩

/-- What the values of the outputs are: one for each line in order, under its name, of its expression. -/
theorem evalOuts_ok_iff {nets : List (NetName × Net)} {outs : List OutDecl} {vs : List (NetName × List Signal)} :
    evalOuts nets outs = .ok vs ↔ List.Forall₂ (fun o p => p.1 = o.name ∧ evalExpr nets o.expr = some p.2) outs vs := by
  induction outs generalizing vs with
  | nil => cases vs <;> simp [evalOuts]
  | cons o rest ih =>
    cases he : evalExpr nets o.expr with
    | none => cases vs <;> simp [evalOuts, he]
    | some v =>
      cases hr : evalOuts nets rest with
      | error n =>
        simp only [hr, reduceCtorEq, false_iff] at ih
        cases vs <;> simp [evalOuts, he, hr, ih]
      | ok ws =>
        simp only [hr, Except.ok.injEq] at ih
        cases vs with
        | nil => simp [evalOuts, he, hr]
        | cons p ps =>
          obtain ⟨m, x⟩ := p
          simp only [evalOuts, he, hr, Except.ok.injEq, List.cons.injEq, Prod.mk.injEq, List.forall₂_cons,
            Option.some.injEq, ← ih]
          rw [eq_comm (a := o.name)]

/-- The outputs have no values exactly when some line has none; the first such line is named. -/
theorem evalOuts_error_iff {nets : List (NetName × Net)} {outs : List OutDecl} {name : NetName} :
    evalOuts nets outs = .error name ↔ ∃ pre o post, outs = pre ++ o :: post ∧ o.name = name ∧
      evalExpr nets o.expr = none ∧ ∀ p ∈ pre, ∃ v, evalExpr nets p.expr = some v := by
  induction outs with
  | nil => simp [evalOuts]
  | cons o rest ih =>
    cases he : evalExpr nets o.expr with
    | none =>
      simp only [evalOuts, he, Except.error.injEq]
      constructor
      · rintro rfl
        exact ⟨[], o, rest, rfl, rfl, he, by simp⟩
      · rintro ⟨_ | ⟨q, pre⟩, p, post, heq, rfl, hn, hp⟩
        · exact congrArg OutDecl.name (List.cons.inj heq).1
        · obtain ⟨rfl, _⟩ := List.cons.inj heq
          obtain ⟨v, hv⟩ := hp _ (List.mem_cons_self ..)
          rw [he] at hv
          cases hv
    | some v =>
      have hrest : evalOuts nets (o :: rest) = .error name ↔ evalOuts nets rest = .error name := by
        cases hr : evalOuts nets rest <;> simp [evalOuts, he, hr]
      rw [hrest, ih]
      constructor
      · rintro ⟨pre, p, post, rfl, hm, hn, hp⟩
        exact ⟨o :: pre, p, post, rfl, hm, hn, by simpa [he] using hp⟩
      · rintro ⟨_ | ⟨q, pre⟩, p, post, heq, hm, hn, hp⟩
        · obtain ⟨rfl, _⟩ := List.cons.inj heq
          rw [he] at hn
          cases hn
        · exact ⟨pre, p, post, (List.cons.inj heq).2, hm, hn, fun p hp' => hp p (List.mem_cons_of_mem _ hp')⟩

/-- Outputs that pass the checks have values, under their names. -/
theorem evalOuts_of_checked {nets : List (NetName × Net)} {outs : List OutDecl}
    (h : ∀ o ∈ outs, o.Checked (netTypes nets)) :
    ∃ vs, evalOuts nets outs = .ok vs ∧ vs.map Prod.fst = outs.map OutDecl.name := by
  induction outs with
  | nil => exact ⟨[], rfl, rfl⟩
  | cons o rest ih =>
    have ho := h o (List.mem_cons_self ..)
    obtain ⟨v, hv, _⟩ := evalExpr_of_checked nets o.expr ho.defined ho.indexed ho.constants
    obtain ⟨vs, hvs, hn⟩ := ih fun p hp => h p (List.mem_cons_of_mem _ hp)
    exact ⟨(o.name, v) :: vs, by simp [evalOuts, hv, hvs], by simp [hn]⟩

/-- The names and types of driven inputs are the netlist's first context. -/
theorem netTypes_inputNets {n : Netlist} {inputs : List (List Signal)}
    (h : inputs.map List.length = n.decls.map fun d => d.width.bits) : netTypes (inputNets n inputs) = n.ctx := by
  simp only [netTypes, inputNets, Netlist.ctx]
  generalize n.decls = ds at h
  induction ds generalizing inputs with
  | nil => simp
  | cons d ds ih =>
    cases inputs with
    | nil => simp at h
    | cons v vs =>
      simp only [List.map_cons, List.cons.injEq] at h
      simp only [List.zip_cons_cons, List.map_cons, netType, h.1, List.cons.injEq, true_and]
      exact ih h.2

/-- When a netlist is evaluated at all. -/
theorem netlistRefusal_eq_none_iff {n : Netlist} {inputs : List (List Signal)} :
    netlistRefusal n inputs = none ↔
      n.inGrammar = true ∧ n.wellFormed ∧ inputs.map List.length = n.decls.map fun d => d.width.bits := by
  unfold netlistRefusal Netlist.wellFormed
  split_ifs with h1 h2 h3
  · simp [h1]
  · simp [h2]
  · simp [inputsMatch] at h3
    simp [h3]
  · simp [inputsMatch] at h3
    simp_all

end Sys2Proof.Machine
end

