-- ==== Sys2Proof/Laws/Step.lean ====
section
/-! SUPPORT. Everything a step can do, said once. -/

namespace Sys2Proof.Machine

/-- The decoder gives a driven vector or a call an operation that is no statement. -/
theorem siteOf_of_decode_driven {u : UnitName} {bits : List Signal} {i : Instr} (h : decode (.driven u bits) = .ok i) :
    siteOf i = none := by
  simp only [decode] at h
  unfold decodeDriven at h
  split at h <;> cases h <;> rfl

theorem siteOf_of_decode_call {u : UnitName} {args : List Int} {i : Instr} (h : decode (.call u args) = .ok i) :
    siteOf i = none := by
  simp only [decode] at h
  unfold decodeCall at h
  split at h <;> cases h <;> rfl

/-- The decoder gives a statement an operation with the statement's name and unit. -/
theorem siteOf_of_decode_wired {st : Stmt} {i : Instr} (h : decode (.wired st) = .ok i) :
    siteOf i = some st.name ∧ i.unit = st.unit := by
  obtain ⟨name, u, args⟩ := st
  simp only [decode] at h
  unfold decodeStatement at h
  split at h <;> cases h <;> exact ⟨rfl, rfl⟩

/-- With only the outputs of a netlist left, a step is its end. -/
theorem step_of_outs {s : State} (ht : s.todo = []) (ho : s.outs ≠ []) : step s = finishNetlist s := by
  obtain ⟨requests, todo, outs, nets, result⟩ := s
  cases ht
  cases outs with
  | nil => exact absurd rfl ho
  | cons o rest => rfl

/-- The ways a step gives a next state: nothing was asked for; an evaluation at the ports or of integers was read; a
statement was bound; a netlist was started; a netlist's outputs were read. -/
theorem step_next {s t : State} (h : step s = .next t) :
    (s.todo = [] ∧ s.outs = [] ∧ s.requests = [] ∧ t = s) ∨
    (s.todo = [] ∧ s.outs = [] ∧ ∃ q rest r, s.requests = q :: rest ∧ t = { s with requests := rest, result := some r }) ∨
    (∃ st rest o, s.todo = st :: rest ∧ assoc s.nets st.name = none ∧ o.unit = st.unit ∧
      t = { s with todo := rest, nets := s.nets ++ [(st.name, .inst o)] }) ∨
    (s.todo = [] ∧ s.outs = [] ∧ ∃ n inputs rest, s.requests = .netlist n inputs :: rest ∧
      netlistRefusal n inputs = none ∧
      t = { s with requests := rest, todo := n.stmts, outs := n.outs, nets := inputNets n inputs }) ∨
    (s.todo = [] ∧ s.outs ≠ [] ∧ ∃ vs, evalOuts s.nets s.outs = .ok vs ∧
      t = { s with outs := [], nets := [], result := some (.netlist vs) }) := by
  obtain ⟨requests, todo, outs, nets, result⟩ := s
  cases todo with
  | cons st rest =>
    simp only [step, nextAction, runOp] at h
    cases hd : decode (.wired st) with
    | error e => simp [hd] at h
    | ok i =>
      simp only [hd] at h
      obtain ⟨hsite, hunit⟩ := siteOf_of_decode_wired hd
      rcases exec_statement hsite ⟨requests, rest, outs, nets, result⟩ with e | ⟨e, he, ho⟩
      · rw [e] at h
        cases h
      · rw [he] at h
        obtain ⟨hn, o, rfl, rfl⟩ := instantiate_next h
        rcases ho with ⟨o', ho', hu⟩ | ⟨r, hr, _⟩
        · cases ho'
          exact .inr (.inr (.inl ⟨st, rest, o, rfl, hn, hu.trans hunit, rfl⟩))
        · cases hr
  | nil =>
    cases outs with
    | cons o os =>
      simp only [step, nextAction, finishNetlist] at h
      cases hv : evalOuts nets (o :: os) with
      | error n => simp [hv] at h
      | ok vs =>
        simp only [hv, Host.Outcome.next.injEq] at h
        exact .inr (.inr (.inr (.inr ⟨rfl, by simp, vs, rfl, h.symm⟩)))
    | nil =>
      have direct : ∀ {i : Instr} {u : State}, siteOf i = none → exec i u = .next t → ∃ r, t = u.read r := by
        intro i u hs he
        rcases exec_direct hs with ⟨_, r, e⟩ | ⟨_, r, e, _⟩
        · rw [e] at he
          cases he
          exact ⟨r, rfl⟩
        · rw [e] at he
          cases he
      match requests with
      | [] =>
        simp only [step, nextAction, nextRequest, Host.Outcome.next.injEq] at h
        exact .inl ⟨rfl, rfl, rfl, h.symm⟩
      | .drive u bits :: rest =>
        simp only [step, nextAction, nextRequest, runOp] at h
        cases hd : decode (.driven u bits) with
        | error e => simp [hd] at h
        | ok i =>
          simp only [hd] at h
          obtain ⟨r, rfl⟩ := direct (siteOf_of_decode_driven hd) h
          exact .inr (.inl ⟨rfl, rfl, _, rest, r, rfl, rfl⟩)
      | .call u args :: rest =>
        simp only [step, nextAction, nextRequest, runOp] at h
        cases hd : decode (.call u args) with
        | error e => simp [hd] at h
        | ok i =>
          simp only [hd] at h
          obtain ⟨r, rfl⟩ := direct (siteOf_of_decode_call hd) h
          exact .inr (.inl ⟨rfl, rfl, _, rest, r, rfl, rfl⟩)
      | .netlist n inputs :: rest =>
        simp only [step, nextAction, nextRequest, startNetlist] at h
        cases hr : netlistRefusal n inputs with
        | some r => simp [hr] at h
        | none =>
          simp only [hr, Host.Outcome.next.injEq] at h
          exact .inr (.inr (.inr (.inl ⟨rfl, rfl, n, inputs, rest, rfl, hr, h.symm⟩)))
      | .memory address :: rest => simp [step, nextAction, nextRequest] at h


/-- One more step of any machine's run. -/
theorem run_of_step (M : Host.Core) (k : Nat) (s : M.State) :
    (∀ t, M.step s = .next t → M.run (k + 1) s = M.run k t) ∧
    (∀ f, M.step s = .fault f → M.run (k + 1) s = .fault f) ∧
    (∀ r, M.step s = .refused r → M.run (k + 1) s = .refused r) := by
  refine ⟨fun t h => ?_, fun f h => ?_, fun r h => ?_⟩ <;> rw [Host.Core.run, h]

/-- A run goes on from a step's next state. -/
theorem run_of_next {s t : State} (k : Nat) (h : step s = .next t) :
    Host.Core.run Sys2Proof.core (k + 1) s = Host.Core.run Sys2Proof.core k t :=
  (run_of_step Sys2Proof.core k s).1 t h

/-- A run ends in a step's fault. -/
theorem run_of_fault {s : State} {f : Fault} (k : Nat) (h : step s = .fault f) :
    Host.Core.run Sys2Proof.core (k + 1) s = .fault f :=
  (run_of_step Sys2Proof.core k s).2.1 f h

/-- A run ends in a step's refusal. -/
theorem run_of_refused {s : State} {r : Refusal} (k : Nat) (h : step s = .refused r) :
    Host.Core.run Sys2Proof.core (k + 1) s = .refused r :=
  (run_of_step Sys2Proof.core k s).2.2 r h

end Sys2Proof.Machine
end

