-- ==== Sys2Proof/Laws/Extension.lean ====
section
/-! SUPPORT. Binding more names changes no value: what is evaluated on some of the bound names is evaluated alike on all of
them, so an evaluation depends on a netlist's wiring and not on what else is bound. And values made of 0 and 1 only give
values made of 0 and 1 only. -/

namespace Sys2Proof.Machine

/-- Every name bound in the first list is bound to the same in the second. -/
def Extends (nets more : List (NetName × Net)) : Prop :=
  ∀ n x, assoc nets n = some x → assoc more n = some x

theorem extends_append (nets k : List (NetName × Net)) : Extends nets (nets ++ k) :=
  fun _ _ h => assoc_append_of_some k h

theorem Extends.trans {a b c : List (NetName × Net)} (h : Extends a b) (g : Extends b c) : Extends a c :=
  fun n x hx => g n x (h n x hx)

/-- An expression keeps its value when more names are bound. -/
theorem evalExpr_extends {a b : List (NetName × Net)} (h : Extends a b) (e : Expr) :
    ∀ v, evalExpr a e = some v → evalExpr b e = some v := by
  induction e using Expr.rec (motive_2 := fun ps => ∀ v, evalParts a ps = some v → evalParts b ps = some v) with
  | name n =>
    intro v hv
    simp only [evalExpr] at hv ⊢
    rcases ha : assoc a n with _ | (w | o) <;> simp [ha] at hv
    simp [h n _ ha, hv]
  | port n p =>
    intro v hv
    simp only [evalExpr] at hv ⊢
    rcases ha : assoc a n with _ | (w | o) <;> simp [ha] at hv
    simp [h n _ ha, hv]
  | index e i ih =>
    intro v hv
    simp only [evalExpr] at hv ⊢
    rcases he : evalExpr a e with _ | w <;> simp [he] at hv
    simpa [ih w he] using hv
  | slice e hi lo ih =>
    intro v hv
    simp only [evalExpr] at hv ⊢
    rcases he : evalExpr a e with _ | w <;> simp [he] at hv
    simpa [ih w he] using hv
  | concat ps ih =>
    intro v hv
    simp only [evalExpr] at hv ⊢
    exact ih v hv
  | const1 n => exact fun v hv => by simpa [evalExpr] using hv
  | const4d n => exact fun v hv => by simpa [evalExpr] using hv
  | const4b ds => exact fun v hv => by simpa [evalExpr] using hv
  | one e ih =>
    rename_i v hv
    simp only [evalParts] at hv ⊢
    exact ih v hv
  | more e ps ihe ihp =>
    rename_i v hv
    simp only [evalParts] at hv ⊢
    rcases he : evalExpr a e with _ | w <;> rcases hp : evalParts a ps with _ | l <;> simp [he, hp] at hv
    simp [ihe w he, ihp l hp, hv]

/-- The arguments of a statement keep their values. -/
theorem arguments_extends {a b : List (NetName × Net)} (h : Extends a b) (es : List Expr) :
    ∀ vs, es.mapM (evalExpr a) = some vs → es.mapM (evalExpr b) = some vs := by
  induction es with
  | nil => exact fun vs hv => by simpa using hv
  | cons e es ih =>
    intro vs hv
    rw [List.mapM_cons] at hv ⊢
    simp only [Option.bind_eq_bind, Option.bind_eq_some_iff, Option.pure_def, Option.some.injEq] at hv ⊢
    obtain ⟨w, hw, ws, hws, rfl⟩ := hv
    exact ⟨w, evalExpr_extends h e w hw, ws, ih ws hws, rfl⟩

/-- A statement whose arguments have values ends alike when more names are bound. -/
theorem evalStmt_extends {a b : List (NetName × Net)} (h : Extends a b) {st : Stmt}
    (hv : evalStmt a st ≠ .refused (.unresolved st.name)) : evalStmt b st = evalStmt a st := by
  rcases evalStmt_cases a st with e | ⟨vs, hvs, _⟩
  · exact absurd e hv
  · simp only [evalStmt, hvs, arguments_extends h _ _ hvs]

/-- Outputs that pass the checks keep their values. -/
theorem evalOuts_extends {a b : List (NetName × Net)} (h : Extends a b) {outs : List OutDecl}
    (hc : ∀ o ∈ outs, o.Checked (netTypes a)) : evalOuts b outs = evalOuts a outs := by
  induction outs with
  | nil => rfl
  | cons o os ih =>
    have ho := hc o (List.mem_cons_self ..)
    obtain ⟨v, hv, _⟩ := evalExpr_of_checked a o.expr ho.defined ho.indexed ho.constants
    simp only [evalOuts, hv, evalExpr_extends h _ _ hv, ih fun p hp => hc p (List.mem_cons_of_mem _ hp)]

theorem numberSignals_binary (w n : Nat) : ∀ x ∈ numberSignals w n, binarySignal x = true := by
  simp [numberSignals, binarySignal]

/-- On names whose inputs carry 0 and 1 only, an expression's value does too: an instance's outputs always do (R28). -/
theorem evalExpr_binary {nets : List (NetName × Net)} (hb : netsBinary nets) (e : Expr) :
    ∀ v, evalExpr nets e = some v → ∀ x ∈ v, binarySignal x = true := by
  induction e using Expr.rec (motive_2 := fun ps =>
    ∀ v, evalParts nets ps = some v → ∀ x ∈ v, binarySignal x = true) with
  | name n =>
    intro v h
    simp only [evalExpr] at h
    rcases ha : assoc nets n with _ | (w | o) <;> simp [ha] at h
    subst h
    exact hb n w (mem_of_assoc ha)
  | port n p =>
    intro v h
    simp only [evalExpr] at h
    rcases ha : assoc nets n with _ | (w | o) <;> simp [ha] at h
    subst h
    cases o <;> cases p <;> simp [Outputs.signals, binarySignal]
  | index e i ih =>
    intro v h
    simp only [evalExpr] at h
    rcases he : evalExpr nets e with _ | w <;> simp [he] at h
    rcases hi : w[i]? with _ | y <;> simp [hi] at h
    subst h
    simpa using ih w he y (List.mem_of_getElem? hi)
  | slice e hi lo ih =>
    intro v h
    simp only [evalExpr] at h
    rcases he : evalExpr nets e with _ | w <;> simp [he] at h
    obtain ⟨_, rfl⟩ := h
    exact fun x hx => ih w he x (List.mem_of_mem_drop (List.mem_of_mem_take hx))
  | concat ps ih => exact fun v h => ih v (by simpa [evalExpr] using h)
  | const1 n =>
    intro v h
    simp only [evalExpr, Option.ite_none_right_eq_some, Option.some.injEq] at h
    exact h.2 ▸ numberSignals_binary _ _
  | const4d n =>
    intro v h
    simp only [evalExpr, Option.ite_none_right_eq_some, Option.some.injEq] at h
    exact h.2 ▸ numberSignals_binary _ _
  | const4b ds =>
    intro v h
    simp only [evalExpr, Option.ite_none_right_eq_some, Option.some.injEq] at h
    exact h.2 ▸ numberSignals_binary _ _
  | one e ih =>
    rename_i v h x hx
    exact ih v (by simpa [evalParts] using h) x hx
  | more e ps ihe ihp =>
    rename_i v h x hx
    simp only [evalParts] at h
    rcases he : evalExpr nets e with _ | w <;> rcases hp : evalParts nets ps with _ | l <;> simp [he, hp] at h
    subst h
    rcases List.mem_append.mp hx with hx | hx
    · exact ihp l hp x hx
    · exact ihe w he x hx

end Sys2Proof.Machine
end

