-- ==== Sys2Proof/Laws/PerInstr.lean ====
section
/-! SUPPORT. What is said of every operation as syntax, one lemma per constructor. -/

namespace Sys2Proof.Laws

/-- The family: the encoder writes an operation for its own unit, with as many signals or arguments as the unit's `IN`
or the unit's ports have (R61 to R64, R70, R71). -/
def EncodedShape.Statement (i : Instr) : Prop :=
  match encode i with
  | .driven u bits => u = i.unit ∧ bits.length = u.inWidth
  | .call u args => u = i.unit ∧ args.length = u.arity
  | .wired st => st.unit = i.unit ∧ st.args.length = st.unit.arity

theorem EncodedShape.ha (o : HaOperands) : EncodedShape.Statement (.ha o) := by
  cases o <;> exact ⟨rfl, rfl⟩

theorem EncodedShape.fa (o : FaOperands) : EncodedShape.Statement (.fa o) := by
  cases o <;> exact ⟨rfl, rfl⟩

theorem EncodedShape.rca4 (o : Rca4Operands) : EncodedShape.Statement (.rca4 o) := by
  cases o <;> exact ⟨rfl, rfl⟩

end Sys2Proof.Laws
end

