-- ==== Sys2Proof/Tests/Slice0.lean ====
section
/-! SUPPORT. Tests. Expected values come from spec/95_test_vectors.md (the rows and sections named), from the tables of
R82 and R92, and from the layouts of R61 to R63. After them, a witness for the hypotheses of each statement. -/

namespace Sys2Proof.Tests

open Sys2Proof Sys2Proof.Machine

/-- What the host read, if the operation ended without a fault. -/
def readOf : Ending → Option Result
  | .next t => t.result
  | .fault _ => none
  | .refused _ => none

/-- The record, if the operation faulted. -/
def recordOf : Ending → Option FaultRecord
  | .fault f => some f.record
  | .next _ => none
  | .refused _ => none

/-- Why the operation was refused, if it was. -/
def refusalOf : Ending → Option Refusal
  | .refused r => some r
  | .next _ => none
  | .fault _ => none

/-- A concatenation of four one-bit parts. -/
def four (a b c d : Expr) : Expr := .concat (.more a (.more b (.more c (.one d))))

/-- A nibble's signals, bit 0 first. -/
def wires (v : Nat) : List Signal := numberSignals 4 v

/-- The state in which the host asks for one thing. -/
def asks (q : Request) : State := { State.reset with requests := [q] }

/-! ### Netlists of section 3 -/

/-- P1. -/
def add8 : Netlist where
  name := "add8"
  decls := [⟨"al", .four⟩, ⟨"ah", .four⟩, ⟨"bl", .four⟩, ⟨"bh", .four⟩]
  stmts :=
    [⟨"lo", .rca4, [.name "al", .name "bl"]⟩,
     ⟨"hi", .rca4, [.name "ah", .name "bh"]⟩,
     ⟨"hic", .rca4, [.port "hi" .s, four (.const1 0) (.const1 0) (.const1 0) (.port "lo" .co)]⟩,
     ⟨"cy", .ha, [.port "hi" .co, .port "hic" .co]⟩]
  outs := [⟨"s_lo", .port "lo" .s⟩, ⟨"s_hi", .port "hic" .s⟩, ⟨"co", .port "cy" .s⟩]

/-- P4. -/
def inc3 : Netlist where
  name := "inc3"
  decls := [⟨"x", .four⟩]
  stmts :=
    [⟨"i1", .rca4, [.name "x", .const4d 1]⟩,
     ⟨"i2", .rca4, [.port "i1" .s, .const4d 1]⟩,
     ⟨"i3", .rca4, [.port "i2" .s, .const4d 1]⟩]
  outs := [⟨"y", .port "i3" .s⟩, ⟨"w1", .port "i1" .co⟩, ⟨"w2", .port "i2" .co⟩, ⟨"w3", .port "i3" .co⟩]

/-- One half adder on two inputs; the ill-formed terms below are small changes of it. -/
def small (st : Stmt) : Netlist where
  name := "small"
  decls := [⟨"x", .one⟩, ⟨"v", .four⟩]
  stmts := [st]
  outs := [⟨"y", .port "h" .s⟩]

/-! ### The checks of R72: one ill-formed term each -/

theorem test_wellFormed_small : (small ⟨"h", .ha, [.name "x", .index (.name "v") 3]⟩).failed = [] := by decide
theorem test_wellFormed_add8 : add8.failed = [] := by decide
theorem test_check_singleAssignment :
    (small ⟨"x", .ha, [.name "v", .name "v"]⟩).failed ≠ [] ∧
      Check.singleAssignment ∈ (small ⟨"x", .ha, [.index (.name "v") 0, .index (.name "v") 1]⟩).failed := by decide
theorem test_check_definedBeforeUse : (small ⟨"h", .ha, [.name "x", .port "h" .s]⟩).failed = [.definedBeforeUse] := by decide
theorem test_check_arity : (small ⟨"h", .ha, [.name "x", .name "x", .name "x"]⟩).failed = [.arity] := by decide
theorem test_check_width : (small ⟨"h", .ha, [.name "x", .name "v"]⟩).failed = [.width] := by decide
theorem test_check_indexRange : (small ⟨"h", .ha, [.name "x", .index (.name "v") 4]⟩).failed = [.indexRange] := by decide
theorem test_check_constantRange : (small ⟨"h", .ha, [.name "x", .const1 2]⟩).failed = [.constantRange] := by decide
/-- The model's choice (log 18): a bare instance name and a port of a declared input fail `defined-before-use`. -/
theorem test_check_wrong_reference :
    ({ small ⟨"h", .ha, [.name "x", .name "x"]⟩ with outs := [⟨"y", .name "h"⟩] } : Netlist).failed = [.definedBeforeUse] ∧
      (small ⟨"h", .ha, [.name "x", .port "x" .s]⟩).failed = [.definedBeforeUse] := by decide
theorem test_grammar_needs_output : { add8 with outs := [] }.inGrammar = false := by decide

/-! ### Decoding: words written out from R61, R62, R63 -/

/-- `IN = {A, B} = 0b01`: A 0, B 1. -/
theorem test_decode_ha : decodeTableWord 2 0b01 = some (.ha (.port (.bit 0) (.bit 1))) := by decide
/-- `IN = {A, B, CI} = 0b100`: A 1, B 0, CI 0. -/
theorem test_decode_fa : decodeTableWord 3 0b100 = some (.fa (.port (.bit 1) (.bit 0) (.bit 0))) := by decide
/-- V12: `IN = 0b1100_0100`, A 12 and B 4. -/
theorem test_decode_rca4 : decodeTableWord 8 0b11000100 =
    some (.rca4 (.port ⟨.bit 1, .bit 1, .bit 0, .bit 0⟩ ⟨.bit 0, .bit 1, .bit 0, .bit 0⟩)) := by decide
theorem test_decode_too_wide : decodeTableWord 3 0b1000 = none ∧ decodeTableWord 5 0 = none := by decide
theorem test_inWord_rca4 : inWord (.rca4 (.port (driveNibble 15) (driveNibble 1))) = some 0b11110001 := by decide
theorem test_mnemonics : [UnitName.ha, .fa, .rca4].map UnitName.mnemonic = ["HA", "FA", "RCA4"] ∧
    [UnitName.ha, .fa, .rca4].map UnitName.integerName = ["HalfAdder", "FullAdder", "RippleCarryAdder"] ∧
    [UnitName.ha, .fa, .rca4].map UnitName.inWidth = [2, 3, 8] ∧
    [UnitName.ha, .fa, .rca4].map UnitName.outWidth = [2, 2, 5] := by decide

/-! ### The units -/

/-- 2.1, last row, driven as a word from reset. -/
theorem test_ha_step : readOf (step (State.reset.withFetchWord 2 0b11)) = some (.ports (.ha ⟨0, 1⟩)) := by decide
/-- 2.5: `HalfAdder(-1, 1)`. -/
theorem test_ha_fault : recordOf (step (asks (.call .ha [-1, 1]))) =
    some ⟨.ha, .integer, [.a], some [-1], none⟩ := by decide
/-- 2.2, row 1 0 1, with its internal nets. -/
theorem test_fa_step : readOf (step (State.reset.withFetchWord 3 0b101)) = some (.ports (.fa ⟨0, 1⟩)) ∧
    faH1 1 0 = ⟨1, 0⟩ ∧ faH2 1 0 1 = ⟨0, 1⟩ := by decide
/-- 2.5: `FullAdder(2, 2, 2)`. -/
theorem test_fa_fault : recordOf (step (asks (.call .fa [2, 2, 2]))) =
    some ⟨.fa, .integer, [.a, .b, .ci], some [2, 2, 2], none⟩ := by decide
/-- V9: 9 + 9, carries 0 1 0 0 1. -/
theorem test_rca4_step : readOf (step (State.reset.withFetchWord 8 0b10011001)) = some (.ports (.rca4 ⟨0b0010, 1⟩)) ∧
    (List.range 5).map (carryNet 9 9) = [0, 1, 0, 0, 1] := by decide
/-- 2.5: `RippleCarryAdder(16, 16)`. -/
theorem test_rca4_fault : recordOf (step (asks (.call .rca4 [16, 16]))) =
    some ⟨.rca4, .integer, [.a, .b], some [16, 16], none⟩ := by decide
/-- S5: `RippleCarryAdder(15,15) → bits=1110, carry=1`. -/
theorem test_rca4_bits : readOf (step (asks (.call .rca4 [15, 15]))) =
    some (.addition ⟨#v[1, 1, 1, 0], 1⟩) := by decide
/-- 2.5, last row: bit `A[1]` of RCA4 unknown. -/
theorem test_rca4_unknown_bit :
    recordOf (step (asks (.drive .rca4 [.bit 0, .bit 0, .bit 0, .bit 0, .bit 1, .unknown, .bit 1, .bit 0]))) =
      some ⟨.rca4, .port, [.a], none, none⟩ := by decide

/-! ### Netlists and their notation -/

/-- P4, `x = 14`: `y = 0b0001`, `w1 = 0`, `w2 = 1`, `w3 = 0`. -/
theorem test_inc3 : (match evalNetlist inc3 [wires 14] with
    | .next vs => vs
    | .fault _ => []
    | .refused _ => []) =
      [("y", wires 1), ("w1", [.bit 0]), ("w2", [.bit 1]), ("w3", [.bit 0])] := by decide
/-- P5: `bl[2]` undriven. -/
theorem test_add8_fault : (match evalNetlist add8 [wires 15, wires 11, [.bit 1, .bit 0, .undriven, .bit 0], wires 0] with
    | .fault f => some f
    | .next _ => none
    | .refused _ => none) = some (.preconditionViolation ⟨.rca4, .port, [.b], none, some "lo"⟩) := by decide
/-- R71: a small netlist, word by word. -/
theorem test_notation : writeNetlist (small ⟨"h", .ha, [.name "x", .slice (.name "v") 2 2]⟩) =
    [.netlistKw, .name "small", .mark .lparen, .name "x", .mark .colon, .number 1, .mark .comma, .name "v", .mark .colon,
     .number 4, .mark .rparen, .mark .colon, .mark .newline,
     .name "h", .mark .equals, .unit .ha, .mark .lparen, .name "x", .mark .comma, .name "v", .mark .lbracket, .number 2,
     .mark .colon, .number 2, .mark .rbracket, .mark .rparen,
     .outKw, .name "y", .mark .equals, .name "h", .mark .dot, .port .s] := by decide
theorem test_notation_read : readNetlist (writeNetlist add8) = some add8 := by decide
theorem test_notation_rejects : readNetlist [.netlistKw, .name "n", .mark .lparen, .mark .rparen] = none := by decide

/-! ### Refusals -/

theorem test_refuses_ill_formed :
    refusalOf (step (asks (.netlist (small ⟨"h", .ha, [.name "x", .name "v"]⟩) [[.bit 0], wires 0]))) =
      some (.illFormedNetlist [.width]) := by decide
theorem test_refuses_memory : refusalOf (step (asks (.memory 5))) = some (.noMemory 5) := by decide

/-! ### Witnesses: states and operands that meet the hypotheses of the statements, clause by clause -/

theorem witness_bits : (∃ x : Bit, Signal.bit 1 = .bit x) ∧ (∃ x : Bit, Signal.bit 0 = .bit x) :=
  ⟨⟨1, rfl⟩, ⟨0, rfl⟩⟩
theorem witness_offending_bit : (binarySignal (.bit 1) && binarySignal .undriven) = false ∧
    (binarySignal .contended && binarySignal (.bit 0) && binarySignal .unknown) = false := by decide
theorem witness_integers_in_range : ((0 : Int) = 0 ∨ (0 : Int) = 1) ∧ ((1 : Int) = 0 ∨ (1 : Int) = 1) ∧
    (0 ≤ (0 : Int) ∧ (0 : Int) ≤ 15) ∧ (0 ≤ (15 : Int) ∧ (15 : Int) ≤ 15) := by decide
theorem witness_integers_out_of_range : ¬(((2 : Int) = 0 ∨ (2 : Int) = 1) ∧ ((0 : Int) = 0 ∨ (0 : Int) = 1)) ∧
    ¬(((0 : Int) = 0 ∨ (0 : Int) = 1) ∧ ((0 : Int) = 0 ∨ (0 : Int) = 1) ∧ ((-1 : Int) = 0 ∨ (-1 : Int) = 1)) ∧
    ¬((0 ≤ (16 : Int) ∧ (16 : Int) ≤ 15) ∧ (0 ≤ (0 : Int) ∧ (0 : Int) ≤ 15)) := by decide
theorem witness_driven_nibble : binaryNibble (driveNibble 15) = true ∧
    (binaryNibble ⟨.bit 0, .bit 0, .undriven, .bit 0⟩ && binaryNibble (driveNibble 0)) = false := by decide
theorem witness_FullAdderLaws : (0 : Bit) = 0 ∧ (1 : Bit) = 1 := by decide
theorem witness_RippleCarryStageLaws : 3 < 4 ∧ value (12 : Nibble) % 2 ^ (0 + 1) = value (14 : Nibble) % 2 ^ (0 + 1) ∧
    carryNet 15 1 4 = 1 ∧ (rippleAdd 5 10).co = 0 := by decide
theorem witness_IntegerResultsAreThePortOutputs :
    atPorts (.rca4 (.integer 15 0)) = some (.rca4 (.port (driveNibble 15) (driveNibble 0))) ∧
    atPorts (.ha (.integer 1 0)) = some (.ha (.port (.bit 1) (.bit 0))) ∧
    levelOf (.rca4 (.integer 15 0)) = .integer ∧ levelOf (.ha (.integer 1 0)) = .integer := by decide
theorem witness_IntegerOperandAssembly : integerNibble 15 = some 15 ∧ integerBit 1 = some 1 := by decide
theorem witness_FaultRecordIsComplete :
    (∃ f, exec (.ha (.integer 2 0)) State.reset = .fault f) ∧ levelOf (.ha (.integer 2 0)) = .integer ∧
    (∃ f, exec (.ha (.port .undriven (.bit 1))) State.reset = .fault f) ∧
    levelOf (.ha (.port .undriven (.bit 1))) = .port :=
  ⟨⟨_, rfl⟩, rfl, ⟨_, rfl⟩, rfl⟩
/-- 2.5: of `FullAdder(2, 2, 2)` every operand offends; of RCA4 with `A[1]` unknown only `A`. -/
theorem test_offending : offending [] (.fa (.integer 2 2 2)) = [(.a, .bit 2), (.b, .bit 2), (.ci, .bit 2)] ∧
    (offending [] (.rca4 (.port ⟨.bit 0, .bit 1, .unknown, .bit 1⟩ (driveNibble 0)))).map Prod.fst = [.a] := by decide
theorem witness_direct_operation : siteOf (.fa (.integer 1 0 1)) = none ∧ inRange (.fa (.integer 1 0 1)) = true ∧
    siteOf (.fa (.integer 1 1 2)) = none ∧ inRange (.fa (.integer 1 1 2)) = false := by decide
theorem witness_EvaluationHasNoSideEffects :
    siteOf (.ha (.integer 1 0)) = none ∧ ∃ t, exec (.ha (.integer 1 0)) State.reset = .next t := ⟨rfl, _, rfl⟩

/-- A netlist evaluation in progress, its inputs and one half adder bound. -/
def midway : State where
  requests := []
  todo := [⟨"g", .ha, [.name "x", .port "h" .co]⟩]
  outs := [⟨"y", .port "g" .s⟩]
  nets := [("x", .input [.bit 1]), ("v", .input (wires 9)), ("h", .inst (.ha ⟨0, 1⟩)), ("r", .inst (.rca4 ⟨9, 1⟩)),
    ("f", .inst (.fa ⟨1, 0⟩))]
  result := none

theorem witness_StatementFrame :
    siteOf (.ha (.wired "g" (.name "x") (.port "h" .co))) = some "g" ∧
      ∃ t, exec (.ha (.wired "g" (.name "x") (.port "h" .co))) midway = .next t := ⟨rfl, _, rfl⟩
theorem witness_statement_arguments :
    evalExpr midway.nets (.name "x") = some [.bit 1] ∧ evalExpr midway.nets (.port "h" .co) = some [.bit 1] ∧
    evalExpr midway.nets (.const1 0) = some [.bit 0] ∧
    evalExpr midway.nets (.name "v") = some [.bit 1, .bit 0, .bit 0, .bit 1] ∧ assoc midway.nets "g" = none := by decide
theorem witness_ExpressionMeaning :
    assoc midway.nets "v" = some (.input (wires 9)) ∧ assoc midway.nets "h" = some (.inst (.ha ⟨0, 1⟩)) ∧
    assoc midway.nets "f" = some (.inst (.fa ⟨1, 0⟩)) ∧ assoc midway.nets "r" = some (.inst (.rca4 ⟨9, 1⟩)) ∧
    (wires 9)[3]? = some (.bit 1) ∧ 3 < (wires 9).length ∧
    evalParts midway.nets (.one (.name "v")) = some (wires 9) := by decide
/-- R13 and R12 by hand: `{v, x}` with `v = 0b1001` and `x = 1` is `0b10011`; its slice `[4:3]` is `0b10`, bit 3 first. -/
theorem test_concat_slice :
    evalExpr midway.nets (.slice (.concat (.more (.name "v") (.one (.name "x")))) 4 3) = some [.bit 0, .bit 1] := by decide
/-- R71, R13: `4'b101` is 5; `4'b0101` too (log 10). -/
theorem test_short_constant : evalExpr [] (.const4b [true, false, true]) = some (wires 5) ∧
    evalExpr [] (.const4b [false, true, false, true]) = some (wires 5) ∧
    binaryValue [true, false, true] = value (5 : Nibble) := by decide
theorem witness_EncodeOfDecode : (match decode (.call .ha [1, 0]) with
    | .ok i => some i
    | .error _ => none) = some (.ha (.integer 1 0)) := by decide
theorem witness_EveryInputVectorIsLegal : [Signal.bit 0, .undriven, .bit 1].length = UnitName.fa.inWidth ∧
    [Signal.bit 0].length ≠ UnitName.ha.inWidth := by decide
theorem witness_InputWordsDecodeBack : inWord (.fa (.port (.bit 1) (.bit 1) (.bit 1))) = some 7 := by decide
theorem witness_notation : add8.inGrammar = true ∧ readNetlist (writeNetlist inc3) = some inc3 := by decide
theorem witness_ExpressionWidths : assoc inc3.ctx "x" = some (.input 4) ∧
    assoc (inc3.ctxAfter (inc3.stmts.take 1)) "i1" = some (.inst .rca4) ∧
    (Expr.name "x").widthIn inc3.ctx = some 4 ∧ (Parts.one (.const1 0)).widthIn inc3.ctx = some 1 := by decide
theorem witness_NamedChecksDemand : inc3.names.Nodup ∧
    passes inc3.ctx inc3.stmts inc3.outs .definedBeforeUse = true ∧
    passes inc3.ctx inc3.stmts inc3.outs .indexRange = true ∧
    (∃ e, inc3.places (inc3.stmts.take 1) e ∧ .port "i1" .s ∈ subExprs e) ∧
    (∃ e, inc3.places inc3.stmts e ∧ .port "i3" .co ∈ subExprs e) :=
  ⟨by decide, by decide, by decide, ⟨_, .inl ⟨_, _, rfl, List.mem_cons_self ..⟩, by decide⟩,
    ⟨.port "i3" .co, .inr ⟨rfl, ⟨"w3", .port "i3" .co⟩, by decide, rfl⟩, by decide⟩⟩
/-- The edges of the checks' ranges: the last index, the last slice and the largest constants pass, the next do not. -/
theorem test_check_edges : (Expr.index (.name "v") 3).indexed [("v", .input 4)] = true ∧
    (Expr.index (.name "v") 4).indexed [("v", .input 4)] = false ∧
    (Expr.slice (.name "v") 3 0).indexed [("v", .input 4)] = true ∧
    (Expr.slice (.name "v") 4 0).indexed [("v", .input 4)] = false ∧
    (Expr.const1 1).constants = true ∧ (Expr.const4d 15).constants = true ∧ (Expr.const4d 16).constants = false ∧
    (Expr.const4b [true, true, true, true]).constants = true := by decide
theorem witness_TableWordsAreReadByWidth : 2 ^ 2 ≤ 4 ∧ 2 ^ 8 ≤ 256 ∧ (5 ≠ 2 ∧ 5 ≠ 3 ∧ 5 ≠ 8) := by decide
theorem witness_NextRequestStandsAlone :
    ¬(asks (.call .ha [2, 0])).running ∧ (asks (.call .ha [2, 0])).requests = .call .ha [2, 0] :: [] ∧
    (∀ n inputs, Request.call .ha [2, 0] ≠ .netlist n inputs) ∧
    ¬(asks (.netlist inc3 [wires 14])).running ∧
    (asks (.netlist inc3 [wires 14])).requests = .netlist inc3 [wires 14] :: [] :=
  ⟨by simp [State.running, asks], rfl, by simp, by simp [State.running, asks], rfl⟩
theorem witness_StepRunsTheDecodedOperation :
    ¬(asks (.drive .ha [.bit 1, .undriven])).running ∧ decode (.driven .ha [.bit 1, .undriven]) = .ok (.ha (.port .undriven (.bit 1))) ∧
    ¬(asks (.call .fa [0, 0, -1])).running ∧ decode (.call .fa [0, 0, -1]) = .ok (.fa (.integer 0 0 (-1))) ∧
    midway.todo ≠ [] ∧
    decode (.wired ⟨"g", .ha, [.name "x", .port "h" .co]⟩) = .ok (.ha (.wired "g" (.name "x") (.port "h" .co))) :=
  ⟨by simp [State.running, asks], rfl, by simp [State.running, asks], rfl, by decide, rfl⟩
theorem witness_UndecodableIsRefused :
    decode (.driven .ha [.bit 1]) = .error (.inputWidth .ha 1) ∧ decode (.call .rca4 [1, 2, 3]) = .error (.callArity .rca4 3) :=
  ⟨rfl, rfl⟩
theorem witness_FetchedWord : decodeTableWord 8 255 ≠ none ∧ decodeTableWord 2 0 ≠ none ∧ decodeTableWord 5 200 = none ∧
    decodeTableWord 2 4 = none := by decide
/-- The model's choice (log 3, log 5): a word of a width no unit has is refused, also one that is written in eight bits. -/
theorem test_fetch_other_width : refusalOf (step (State.reset.withFetchWord 5 200)) = some (.undecodable (.inputWidth .rca4 0)) ∧
    refusalOf (step (State.reset.withFetchWord 2 200)) = some (.undecodable (.inputWidth .ha 8)) := by decide
theorem witness_memory_and_idle : ¬(asks (.memory 0)).running ∧ ¬State.reset.running ∧ State.reset.requests = [] :=
  ⟨by simp [State.running, asks], by simp [State.running], rfl⟩
theorem witness_NetlistChecksDecideTheStart :
    ¬(asks (.netlist inc3 [wires 14])).running ∧ inc3.inGrammar = true ∧
    (∀ k ∈ Check.all, passes inc3.ctx inc3.stmts inc3.outs k = true) ∧
    [wires 14].map List.length = inc3.decls.map (fun d => d.width.bits) ∧
    passes (small ⟨"h", .ha, [.name "x", .const1 2]⟩).ctx [⟨"h", .ha, [.name "x", .const1 2]⟩] [⟨"y", .port "h" .s⟩]
      .constantRange = false :=
  ⟨by simp [State.running, asks], by decide, by decide, by decide, by decide⟩
theorem witness_NoCombinationalLoop : inc3.wellFormed ∧
    inc3.stmts = [⟨"i1", .rca4, [.name "x", .const4d 1]⟩] ++
      ⟨"i2", .rca4, [.port "i1" .s, .const4d 1]⟩ :: [⟨"i3", .rca4, [.port "i2" .s, .const4d 1]⟩] ∧
    "i1" ∈ exprNames (.port "i1" .s) := by decide
theorem witness_Inv : midway.Inv ∧ midway.running ∧ ∃ t, step midway = .next t :=
  ⟨⟨by decide, by decide⟩, .inl (by decide), _, rfl⟩
theorem witness_netlist_inputs : inc3.inGrammar = true ∧ inc3.wellFormed ∧
    [wires 15].map List.length = inc3.decls.map (fun d => d.width.bits) ∧
    ∀ v ∈ [wires 15], ∀ x ∈ v, binarySignal x = true := by decide
theorem witness_FirstFaultingStatement :
    ∃ f, evalStmts [("x", .input [.undriven])] [⟨"h", .ha, [.const1 0, .const1 1]⟩, ⟨"g", .ha, [.name "x", .port "h" .s]⟩] =
      .fault f := ⟨_, rfl⟩

theorem witness_OutputsAreTheirExpressions :
    (∃ vs, evalNetlist inc3 [wires 15] = .next vs) ∧
    ({ midway with todo := [], outs := [⟨"p", .name "v"⟩, ⟨"q", .port "r" .co⟩] } : State).outs ≠ [] ∧
    evalExpr midway.nets (.name "v") = some (wires 9) ∧ evalExpr midway.nets (.port "r" .co) = some [.bit 1] ∧
    evalExpr midway.nets (.name "h") = none := ⟨⟨_, rfl⟩, by decide, by decide, by decide, by decide⟩

/-- `add8` with its first two statements, which do not depend on each other, in the other order. -/
def add8Swapped : Netlist :=
  { add8 with stmts := match add8.stmts with
      | lo :: hi :: rest => hi :: lo :: rest
      | short => short }

theorem witness_StatementOrderDoesNotMatter : add8.inGrammar = true ∧ add8.wellFormed ∧ add8Swapped.wellFormed ∧
    add8Swapped.decls = add8.decls ∧ add8Swapped.outs = add8.outs ∧ add8Swapped.stmts.Perm add8.stmts :=
  ⟨by decide, by decide, by decide, rfl, rfl, .swap _ _ _⟩

end Sys2Proof.Tests
end

section
/-! The order of a netlist's statements (R17, R74). The names bound by one completed evaluation are a fixed point: each
statement, evaluated on all of them, gives exactly what its own name is bound to. Any other order whose references are all
bound before their use then binds, statement by statement, the same values, so its outputs are the same. -/

namespace Sys2Proof.Machine

/-- The statement's name is bound to what the statement gives on all the bound names. -/
def SettledIn (nets : List (NetName × Net)) (st : Stmt) : Prop :=
  ∃ o, evalStmt nets st = .next o ∧ assoc nets st.name = some (.inst o)

theorem Extends.refl (nets : List (NetName × Net)) : Extends nets nets := fun _ _ h => h

/-- Binding one more name stays inside names that bind it to the same. -/
theorem Extends.bind {a b : List (NetName × Net)} (h : Extends a b) {m : NetName} {x : Net}
    (hm : assoc b m = some x) : Extends (a ++ [(m, x)]) b := by
  intro n y hy
  cases ha : assoc a n with
  | some z =>
    obtain rfl : z = y := by simpa [assoc_append_of_some _ ha] using hy
    exact h n z ha
  | none =>
    obtain ⟨rfl, rfl⟩ : m = n ∧ x = y := by simpa [assoc_append_of_none _ ha] using hy
    exact hm

/-- Outputs that a statement gives are those of its unit. -/
theorem evalStmt_next_unit {nets : List (NetName × Net)} {st : Stmt} {o : Outputs} (h : evalStmt nets st = .next o) :
    o.unit = st.unit := by
  rcases evalStmt_cases nets st with e | ⟨vs, -, ⟨o', hu, e⟩ | ⟨r, -, e⟩⟩ <;> rw [e] at h <;> cases h
  rcases unitAt_cases hu with ⟨o', ho, hunit, -⟩ | ⟨r, hr, -⟩
  · cases ho
    exact hunit
  · cases hr

/-- A statement that passes the checks is not refused. -/
theorem evalStmt_ne_refused {nets : List (NetName × Net)} {st : Stmt} (h : st.Checked (netTypes nets))
    (hn : assoc nets st.name = none) (r : Refusal) : evalStmt nets st ≠ .refused r := by
  obtain ⟨-, -, ⟨o, -, e, -⟩ | ⟨f, -, e, -⟩⟩ := statement_of_checked h hn <;> simp [e]

/-- A statement keeps its outputs when more names are bound. -/
theorem evalStmt_next_extends {a b : List (NetName × Net)} (h : Extends a b) {st : Stmt} {o : Outputs}
    (ho : evalStmt a st = .next o) : evalStmt b st = .next o := by
  rw [evalStmt_extends h (by simp [ho]), ho]

theorem evalStmts_cons_next_iff {a b : List (NetName × Net)} {st : Stmt} {rest : List Stmt} :
    evalStmts a (st :: rest) = .next b ↔
      ∃ o, evalStmt a st = .next o ∧ evalStmts (a ++ [(st.name, .inst o)]) rest = .next b := by
  cases h : evalStmt a st <;> simp [evalStmts, h]

theorem evalNetlist_next_iff {n : Netlist} {inputs : List (List Signal)} {vs : List (NetName × List Signal)} :
    evalNetlist n inputs = .next vs ↔ netlistRefusal n inputs = none ∧
      ∃ nets, evalStmts (inputNets n inputs) n.stmts = .next nets ∧ evalOuts nets n.outs = .ok vs := by
  unfold evalNetlist
  cases netlistRefusal n inputs with
  | some r => simp
  | none =>
    cases evalStmts (inputNets n inputs) n.stmts with
    | fault f => simp
    | refused r => simp
    | next nets => cases ho : evalOuts nets n.outs <;> simp [ho]

/-- The checks of a statement left are its own, its name's being unbound, and the checks of the rest on what it binds. -/
theorem passes_bind {nets : List (NetName × Net)} {st : Stmt} {rest : List Stmt} {outs : List OutDecl}
    (h : ∀ k, passes (netTypes nets) (st :: rest) outs k = true) :
    st.Checked (netTypes nets) ∧ assoc nets st.name = none ∧
      ∀ o : Outputs, o.unit = st.unit →
        ∀ k, passes (netTypes (nets ++ [(st.name, .inst o)])) rest outs k = true := by
  obtain ⟨hst, hrest⟩ := passes_cons_iff.mp h
  refine ⟨hst, ?_, fun o ho k => ?_⟩
  · simpa [assoc_eq_none_iff] using passes_fresh (h .singleAssignment)
  · rw [netTypes_bind nets ho]
    exact hrest k

/-- A completed evaluation keeps the names bound before it, and settles each of its statements. -/
theorem evalStmts_settles {a b : List (NetName × Net)} {stmts : List Stmt} {outs : List OutDecl}
    (hp : ∀ k, passes (netTypes a) stmts outs k = true) (h : evalStmts a stmts = .next b) :
    Extends a b ∧ ∀ st ∈ stmts, SettledIn b st := by
  induction stmts generalizing a with
  | nil =>
    obtain rfl : a = b := by simpa [evalStmts] using h
    exact ⟨.refl a, by simp⟩
  | cons st rest ih =>
    obtain ⟨o, ho, hrun⟩ := evalStmts_cons_next_iff.mp h
    obtain ⟨-, hnew, hrest⟩ := passes_bind hp
    obtain ⟨hext, hsettled⟩ := ih (hrest o (evalStmt_next_unit ho)) hrun
    have hab : Extends a b := (extends_append a _).trans hext
    have hname : assoc b st.name = some (.inst o) := hext _ _ (by simp [assoc_append_of_none _ hnew])
    exact ⟨hab, List.forall_mem_cons.mpr ⟨⟨o, evalStmt_next_extends hab ho, hname⟩, hsettled⟩⟩

/-- Statements that pass the checks and are settled in `b` complete from any part of `b`, and bind a part of `b` on which
the outputs pass the checks. -/
theorem evalStmts_within {a b : List (NetName × Net)} {stmts : List Stmt} {outs : List OutDecl} (hab : Extends a b)
    (hp : ∀ k, passes (netTypes a) stmts outs k = true) (hs : ∀ st ∈ stmts, SettledIn b st) :
    ∃ c, evalStmts a stmts = .next c ∧ Extends c b ∧ ∀ o ∈ outs, o.Checked (netTypes c) := by
  induction stmts generalizing a with
  | nil => exact ⟨a, rfl, hab, passes_nil hp⟩
  | cons st rest ih =>
    obtain ⟨⟨o, hb, hname⟩, hsettled⟩ := List.forall_mem_cons.mp hs
    obtain ⟨hst, hnew, hrest⟩ := passes_bind hp
    have ha : evalStmt a st = .next o := by rw [← evalStmt_extends hab (evalStmt_ne_refused hst hnew _), hb]
    obtain ⟨c, hrun, hcb, houts⟩ := ih (hab.bind hname) (hrest o (evalStmt_next_unit ha)) hsettled
    exact ⟨c, evalStmts_cons_next_iff.mpr ⟨o, ha, hrun⟩, hcb, houts⟩

/-- The six checks of a well-formed netlist hold on the inputs driven on it. -/
theorem passes_inputNets {n : Netlist} {inputs : List (List Signal)} (h : netlistRefusal n inputs = none) (k : Check) :
    passes (netTypes (inputNets n inputs)) n.stmts n.outs k = true := by
  obtain ⟨-, hwf, hin⟩ := netlistRefusal_eq_none_iff.mp h
  rw [netTypes_inputNets hin]
  exact failedChecks_eq_nil_iff.mp hwf k

/-- What the grammar asks of a netlist does not depend on the order of its statements. -/
theorem inGrammar_of_perm {n m : Netlist} (hd : m.decls = n.decls) (ho : m.outs = n.outs) (hs : m.stmts.Perm n.stmts)
    (h : n.inGrammar = true) : m.inGrammar = true := by
  simpa only [Netlist.inGrammar, hd, ho, hs.isEmpty_eq, hs.all_eq] using h

/-- Outputs given in one order of the statements are given in every other that passes the checks. -/
theorem evalNetlist_of_perm {n m : Netlist} {inputs : List (List Signal)} {vs : List (NetName × List Signal)}
    (hm : m.wellFormed) (hd : m.decls = n.decls) (ho : m.outs = n.outs) (hs : m.stmts.Perm n.stmts)
    (h : evalNetlist n inputs = .next vs) : evalNetlist m inputs = .next vs := by
  obtain ⟨hnr, b, hrun, hvs⟩ := evalNetlist_next_iff.mp h
  obtain ⟨hg, -, hin⟩ := netlistRefusal_eq_none_iff.mp hnr
  have hmr : netlistRefusal m inputs = none :=
    netlistRefusal_eq_none_iff.mpr ⟨inGrammar_of_perm hd ho hs hg, hm, by rw [hin, hd]⟩
  have hbase : inputNets m inputs = inputNets n inputs := by simp only [inputNets, hd]
  obtain ⟨hext, hsettled⟩ := evalStmts_settles (passes_inputNets hnr) hrun
  obtain ⟨c, hrun', hcb, houts⟩ := evalStmts_within (hbase ▸ hext) (passes_inputNets hmr)
    fun st hst => hsettled st (hs.mem_iff.mp hst)
  refine evalNetlist_next_iff.mpr ⟨hmr, c, hrun', ?_⟩
  rw [← evalOuts_extends hcb houts, ho, hvs]

/-- Settles O47: a completed evaluation of either order is a fixed point of its statements, and the other order computes
inside it. -/
theorem statementOrderDoesNotMatter : Obligations.StatementOrderDoesNotMatter := by
  intro n m inputs _ hn hm hd ho hs vs
  exact ⟨evalNetlist_of_perm hm hd ho hs, evalNetlist_of_perm hn hd.symm ho.symm hs.symm⟩

end Sys2Proof.Machine
end

section
/-! What state there is: none enters an evaluation (R27, R49), and none is held at reset (R32, R140). -/

namespace Sys2Proof.Machine

@[simp] theorem observed_read (s : State) (r : Result) : observed (.next (s.read r)) = .next (some r) := rfl

/-- What the host is given of an operation that is no statement is one answer for all states. -/
theorem observed_exec_direct {i : Instr} (h : siteOf i = none) : ∃ y, ∀ s, observed (exec i s) = y := by
  obtain ⟨-, r, hr⟩ | ⟨-, r, hr, -⟩ := exec_direct h
  · exact ⟨.next (some r), fun s => by rw [hr, observed_read]⟩
  · exact ⟨.fault (.preconditionViolation r), fun s => by rw [hr, observed]⟩

/-- Settles O20: in either state the host is given that one answer. -/
theorem outputsDependOnInputsOnly : Obligations.OutputsDependOnInputsOnly := by
  intro i s t h
  obtain ⟨y, hy⟩ := observed_exec_direct h
  rw [hy s, hy t]

/-- With no name bound, no statement and no output, no check of R72 finds anything. -/
theorem failedChecks_empty : failedChecks [] [] [] = [] := by decide

/-- A state in which no netlist is in progress and no name is bound meets the invariant. -/
theorem State.inv_of_empty {s : State} (ht : s.todo = []) (ho : s.outs = []) (hn : s.nets = []) : s.Inv := by
  refine ⟨?_, fun _ => ⟨ht, hn⟩⟩
  rw [ht, ho, hn]
  exact failedChecks_empty

/-- Settles O38: the fields of the reset state are empty, and an empty state meets the invariant. -/
theorem resetHoldsNothing : Obligations.ResetHoldsNothing :=
  ⟨State.reset_requests, State.reset_todo, State.reset_outs, State.reset_nets, State.reset_result,
    State.inv_of_empty State.reset_todo State.reset_outs State.reset_nets⟩

end Sys2Proof.Machine
end

section
/-! What is left alone: an evaluation outside a netlist changes only what is read (R46), an idle machine changes nothing
(R11), and there is no memory to ask for (R40). -/

namespace Sys2Proof.Machine

/-- An operation that is no statement and goes on in one state reads one and the same result in every state. -/
theorem exec_direct_next {i : Instr} {s t : State} (h : siteOf i = none) (ht : exec i s = .next t) :
    ∃ r, t = s.read r ∧ ∀ u, exec i u = .next (u.read r) := by
  obtain ⟨-, r, hr⟩ | ⟨-, r, hr, -⟩ := exec_direct h
  · rw [hr, Host.Outcome.next.injEq] at ht
    exact ⟨r, ht.symm, hr⟩
  · rw [hr] at ht
    cases ht

/-- Settles O21: the next state differs by what is read, and reading the same result again replaces it by itself. -/
theorem evaluationHasNoSideEffects : Obligations.EvaluationHasNoSideEffects := by
  intro i s t h ht
  obtain ⟨r, rfl, hr⟩ := exec_direct_next h ht
  exact ⟨s.read_requests r, s.read_todo r, s.read_outs r, s.read_nets r, by rw [hr, State.read_read]⟩

theorem State.not_running_iff {s : State} : ¬ s.running ↔ s.todo = [] ∧ s.outs = [] := by
  simp [State.running]

/-- With no netlist in progress the host's next request comes next. -/
theorem nextAction_of_not_running {s : State} (h : ¬ s.running) : nextAction s = nextRequest s := by
  obtain ⟨htodo, houts⟩ := State.not_running_iff.mp h
  simp only [nextAction, htodo, houts]

/-- A request that names an address is refused: the block has no memory (R40). -/
theorem step_memory {s : State} {address : Nat} {rest : List Request} (h : ¬ s.running)
    (hr : s.requests = .memory address :: rest) : step s = .refused (.noMemory address) := by
  simp only [step, nextAction_of_not_running h, nextRequest, hr]

/-- With nothing asked for, a step stands still (R11; log 4). -/
theorem step_idle {s : State} (h : ¬ s.running) (hr : s.requests = []) : step s = .next s := by
  simp only [step, nextAction_of_not_running h, nextRequest, hr]

/-- Settles O37: the first request names memory, or there is none; neither asks for an evaluation. -/
theorem memoryIsRefusedAndIdleIsStill : Obligations.MemoryIsRefusedAndIdleIsStill :=
  ⟨fun _ _ _ => step_memory, fun _ => step_idle⟩

end Sys2Proof.Machine
end

section
/-! The text of a netlist (R71), written and read back. An expression's words end where a word stands that can neither go
on a NAME (a dot) nor begin an index (a bracket); the reader, given fuel for as many words as it has to read, comes to that
end with the expression that was written. Conversely, what the reader accepts is what the writer puts down. -/

namespace Sys2Proof.Machine

/-- What stands after an expression does not go on it: it is no dot and no bracket. -/
structure Closes (rest : List Token) : Prop where
  noDot : ∀ more, rest ≠ .mark .dot :: more
  noBracket : ∀ more, rest ≠ .mark .lbracket :: more

theorem closes_nil : Closes [] := ⟨by simp, by simp⟩

theorem closes_cons {t : Token} {rest : List Token} (hd : t ≠ .mark .dot) (hb : t ≠ .mark .lbracket) :
    Closes (t :: rest) := ⟨by simp [hd], by simp [hb]⟩

/-- With no bracket after it an expression is read as it is. -/
theorem readSuffix_of_noBracket {rest : List Token} (e : Expr) (h : ∀ more, rest ≠ .mark .lbracket :: more) :
    readSuffix e rest = (e, rest) := by
  rw [readSuffix]
  · exact fun i more => h _
  · exact fun hi lo more => h _

/-- A NAME with no dot after it is a declared input. -/
theorem readExpr_name {rest : List Token} (fuel : Nat) (n : NetName) (h : ∀ more, rest ≠ .mark .dot :: more) :
    readExpr (fuel + 1) (.name n :: rest) = some (readSuffix (.name n) rest) := by
  rw [readExpr]
  exact fun p more => h _

/-- Reading an expression's words leaves its suffixes, if any follow, to be read. -/
theorem readExpr_writeExpr_append (e : Expr) : ∀ {fuel : Nat} {rest : List Token}, (writeExpr e).length ≤ fuel →
    (∀ more, rest ≠ .mark .dot :: more) → readExpr fuel (writeExpr e ++ rest) = some (readSuffix e rest) := by
  induction e using Expr.rec (motive_2 := fun ps => ∀ {fuel : Nat} {rest : List Token}, (writeParts ps).length ≤ fuel →
    readParts fuel (writeParts ps ++ rest) = some (ps, rest)) with
  | name n =>
    intro fuel rest hf hd
    cases fuel with
    | zero => simp [writeExpr] at hf
    | succ k => exact readExpr_name k n hd
  | port n p =>
    intro fuel rest hf _
    cases fuel with
    | zero => simp [writeExpr] at hf
    | succ k => rfl
  | index e i ih =>
    intro fuel rest hf _
    simp only [writeExpr, List.length_append] at hf
    simp only [writeExpr, List.append_assoc, List.cons_append, List.nil_append]
    rw [ih (by omega) (by simp), readSuffix]
  | slice e hi lo ih =>
    intro fuel rest hf _
    simp only [writeExpr, List.length_append] at hf
    simp only [writeExpr, List.append_assoc, List.cons_append, List.nil_append]
    rw [ih (by omega) (by simp), readSuffix]
  | concat ps ih =>
    intro fuel rest hf _
    simp only [writeExpr, List.length_cons] at hf
    cases fuel with
    | zero => omega
    | succ k => simp only [writeExpr, List.cons_append, readExpr, ih (Nat.le_of_succ_le_succ hf)]
  | const1 n | const4d n | const4b ds =>
    intro fuel rest hf _
    cases fuel with
    | zero => simp [writeExpr] at hf
    | succ k => rfl
  | one e ih =>
    rename_i fuel rest hf
    simp only [writeParts, List.length_append, List.length_singleton] at hf
    cases fuel with
    | zero => omega
    | succ k =>
      simp only [writeParts, List.append_assoc, List.singleton_append]
      rw [readParts, ih (by omega) (by simp), readSuffix_of_noBracket e (by simp)]
  | more e ps ihe ihp =>
    rename_i fuel rest hf
    simp only [writeParts, List.length_append, List.length_cons] at hf
    cases fuel with
    | zero => omega
    | succ k =>
      simp only [writeParts, List.append_assoc, List.cons_append]
      rw [readParts, ihe (by omega) (by simp), readSuffix_of_noBracket e (by simp)]
      simp only [ihp (rest := rest) (fuel := k) (by omega)]

/-- An expression with nothing going on it is read back from its words. -/
theorem readExpr_writeExpr {e : Expr} {fuel : Nat} {rest : List Token} (hf : (writeExpr e).length ≤ fuel)
    (h : Closes rest) : readExpr fuel (writeExpr e ++ rest) = some (e, rest) := by
  rw [readExpr_writeExpr_append e hf h.noDot, readSuffix_of_noBracket e h.noBracket]

/-- Arguments, of which a statement of the grammar has one at least, are read back from their words. -/
theorem readArgs_writeArgs {args : List Expr} (hne : args ≠ []) {fuel : Nat} {rest : List Token}
    (hf : (writeArgs args).length ≤ fuel) : readArgs fuel (writeArgs args ++ rest) = some (args, rest) := by
  induction args generalizing fuel with
  | nil => exact absurd rfl hne
  | cons e es ih =>
    cases fuel with
    | zero => cases es <;> simp [writeArgs] at hf
    | succ k =>
      cases es with
      | nil =>
        simp only [writeArgs, List.length_append] at hf
        simp only [writeArgs, List.append_assoc, List.singleton_append]
        rw [readArgs, readExpr_writeExpr (by omega) (closes_cons (by simp) (by simp))]
      | cons a as =>
        simp only [writeArgs, List.length_append, List.length_cons] at hf ih
        simp only [writeArgs, List.append_assoc, List.cons_append]
        rw [readArgs, readExpr_writeExpr (by omega) (closes_cons (by simp) (by simp))]
        simp only [ih (fuel := k) (by simp) (by omega)]

@[simp] theorem readWidth_bits (w : Width) : readWidth w.bits = some w := by
  cases w <;> rfl

/-- Declarations, of which a netlist of the grammar has one at least, are read back from their words. -/
theorem readDecls_writeDecls {ds : List Decl} (hne : ds ≠ []) (rest : List Token) :
    readDecls (writeDecls ds ++ rest) = some (ds, rest) := by
  induction ds with
  | nil => exact absurd rfl hne
  | cons d ds ih =>
    cases ds with
    | nil => simp [writeDecls, readDecls]
    | cons d' ds => simp [writeDecls, readDecls, ih]

/-- The outputs' words begin with no word that goes on an expression. -/
theorem closes_writeOuts (os : List OutDecl) : Closes (os.flatMap writeOut) := by
  cases os with
  | nil => exact closes_nil
  | cons o os => exact closes_cons (by simp) (by simp)

/-- Outputs are read back from their words. -/
theorem readOuts_writeOuts {os : List OutDecl} {fuel : Nat} (hf : (os.flatMap writeOut).length < fuel) :
    readOuts fuel (os.flatMap writeOut) = some os := by
  induction os generalizing fuel with
  | nil =>
    cases fuel with
    | zero => simp at hf
    | succ k => rfl
  | cons o os ih =>
    cases fuel with
    | zero => omega
    | succ k =>
      simp only [List.flatMap_cons, writeOut, List.length_append, List.length_cons] at hf
      simp only [List.flatMap_cons, writeOut, List.cons_append, List.nil_append]
      rw [readOuts, readExpr_writeExpr (by omega) (closes_writeOuts os)]
      simp only [ih (fuel := k) (by omega)]

/-- With no statement before them, the outputs are read. -/
theorem readBody_writeOuts {os : List OutDecl} {fuel : Nat} (hf : (os.flatMap writeOut).length < fuel) :
    readBody fuel (os.flatMap writeOut) = some ([], os) := by
  cases fuel with
  | zero => omega
  | succ k =>
    rw [readBody, readOuts_writeOuts hf]
    cases os <;> simp [writeOut]

/-- Statements, each with an argument at least, and outputs are read back from their words. -/
theorem readBody_write {ss : List Stmt} {os : List OutDecl} (hargs : ∀ st ∈ ss, st.args ≠ []) {fuel : Nat}
    (hf : (ss.flatMap writeStmt ++ os.flatMap writeOut).length < fuel) :
    readBody fuel (ss.flatMap writeStmt ++ os.flatMap writeOut) = some (ss, os) := by
  induction ss generalizing fuel with
  | nil =>
    rw [List.flatMap_nil, List.nil_append] at hf ⊢
    exact readBody_writeOuts hf
  | cons st ss ih =>
    obtain ⟨hst, hss⟩ := List.forall_mem_cons.mp hargs
    cases fuel with
    | zero => omega
    | succ k =>
      simp only [List.flatMap_cons, writeStmt, List.length_append, List.length_cons] at hf ih
      simp only [List.flatMap_cons, writeStmt, List.append_assoc, List.cons_append, List.nil_append]
      rw [readBody, readArgs_writeArgs hst (by omega)]
      simp only [ih hss (fuel := k) (by omega)]

/-- What the grammar asks of the lists: none is empty (R71). -/
theorem inGrammar_iff {n : Netlist} : n.inGrammar = true ↔
    n.decls ≠ [] ∧ n.stmts ≠ [] ∧ n.outs ≠ [] ∧ ∀ st ∈ n.stmts, st.args ≠ [] := by
  simp [Netlist.inGrammar, and_assoc]

/-- Settles O32: declarations, statements and outputs are read back one after another, each from its own words, and the
length of the whole text is fuel enough for all of them. -/
theorem notationReadsWhatItWrites : Obligations.NotationReadsWhatItWrites := by
  intro n hn
  obtain ⟨hd, -, -, hargs⟩ := inGrammar_iff.mp hn
  simp only [readNetlist, writeNetlist, List.append_assoc, List.cons_append, List.nil_append,
    readDecls_writeDecls hd]
  rw [readBody_write hargs (by simp; omega)]
  simp [hn]

/-- Reading suffixes takes the words away that writing them puts there. -/
theorem writeExpr_readSuffix (e : Expr) (ts : List Token) :
    writeExpr (readSuffix e ts).1 ++ (readSuffix e ts).2 = writeExpr e ++ ts := by
  fun_induction readSuffix e ts with
  | case1 e i rest ih => simpa [writeExpr] using ih
  | case2 e hi lo rest ih => simpa [writeExpr] using ih
  | case3 => rfl

/-- An expression that is read with its suffixes was written before them. -/
theorem write_of_readSuffix {e₀ e : Expr} {ts rest : List Token} (h : some (readSuffix e₀ ts) = some (e, rest)) :
    writeExpr e₀ ++ ts = writeExpr e ++ rest := by
  rw [← writeExpr_readSuffix e₀ ts, Option.some.inj h]

/-- What is read as an expression, or as the parts of a concatenation, is its words and what follows them. -/
theorem write_of_readExpr_readParts (fuel : Nat) :
    (∀ {ts e rest}, readExpr fuel ts = some (e, rest) → ts = writeExpr e ++ rest) ∧
    (∀ {ts ps rest}, readParts fuel ts = some (ps, rest) → ts = writeParts ps ++ rest) := by
  induction fuel with
  | zero => exact ⟨fun h => by simp [readExpr] at h, fun h => by simp [readParts] at h⟩
  | succ k ih =>
    obtain ⟨ihe, ihp⟩ := ih
    refine ⟨fun {ts e rest} h => ?_, fun {ts ps rest} h => ?_⟩
    · unfold readExpr at h
      split at h
      case h_6 =>
        split at h
        next hps =>
          rw [ihp hps]
          exact write_of_readSuffix h
        next => cases h
      case h_7 => cases h
      all_goals exact write_of_readSuffix h
    · unfold readParts at h
      split at h
      next he =>
        cases h
        simp [ihe he, writeParts]
      next he =>
        split at h
        next hps =>
          cases h
          simp [ihe he, ihp hps, writeParts]
        next => cases h
      next => cases h

theorem write_of_readExpr {fuel : Nat} {ts : List Token} {e : Expr} {rest : List Token}
    (h : readExpr fuel ts = some (e, rest)) : ts = writeExpr e ++ rest :=
  (write_of_readExpr_readParts fuel).1 h

/-- What is read as arguments is their words and what follows them. -/
theorem write_of_readArgs {fuel : Nat} {ts : List Token} {args : List Expr} {rest : List Token}
    (h : readArgs fuel ts = some (args, rest)) : args ≠ [] ∧ ts = writeArgs args ++ rest := by
  induction fuel generalizing ts args with
  | zero => simp [readArgs] at h
  | succ k ih =>
    unfold readArgs at h
    split at h
    next he =>
      cases h
      exact ⟨by simp, by simp [write_of_readExpr he, writeArgs]⟩
    next he =>
      split at h
      next hes =>
        cases h
        obtain ⟨hne, hts⟩ := ih hes
        obtain ⟨a, as, rfl⟩ := List.exists_cons_of_ne_nil hne
        exact ⟨by simp, by simp [write_of_readExpr he, hts, writeArgs]⟩
      next => cases h
    next => cases h

theorem bits_of_readWidth {k : Nat} {w : Width} (h : readWidth k = some w) : w.bits = k := by
  unfold readWidth at h
  split at h <;> cases h <;> rfl

/-- What is read as declarations is their words and what follows them. -/
theorem write_of_readDecls {ts : List Token} {ds : List Decl} {rest : List Token}
    (h : readDecls ts = some (ds, rest)) : ds ≠ [] ∧ ts = writeDecls ds ++ rest := by
  fun_induction readDecls ts generalizing ds with
  | case1 n k more w hw =>
    cases h
    exact ⟨by simp, by simp [writeDecls, bits_of_readWidth hw]⟩
  | case3 n k more w ds' more' hds hw ih =>
    cases h
    obtain ⟨hne, hts⟩ := ih hds
    obtain ⟨d, ds, rfl⟩ := List.exists_cons_of_ne_nil hne
    exact ⟨by simp, by simp [writeDecls, bits_of_readWidth hw, hts]⟩
  | case2 | case4 | case5 => cases h

/-- What is read as outputs is their words. -/
theorem write_of_readOuts {fuel : Nat} {ts : List Token} {os : List OutDecl} (h : readOuts fuel ts = some os) :
    ts = os.flatMap writeOut := by
  induction fuel generalizing ts os with
  | zero => simp [readOuts] at h
  | succ k ih =>
    unfold readOuts at h
    split at h
    · cases h
      rfl
    · split at h
      next he =>
        split at h
        next hos =>
          cases h
          simp [write_of_readExpr he, ih hos, writeOut]
        next => cases h
      next => cases h
    · cases h

/-- What is read as statements and outputs is their words. -/
theorem write_of_readBody {fuel : Nat} {ts : List Token} {ss : List Stmt} {os : List OutDecl}
    (h : readBody fuel ts = some (ss, os)) : ts = ss.flatMap writeStmt ++ os.flatMap writeOut := by
  induction fuel generalizing ts ss with
  | zero => simp [readBody] at h
  | succ k ih =>
    unfold readBody at h
    split at h
    · split at h
      next hargs =>
        split at h
        next hbody =>
          cases h
          simp [(write_of_readArgs hargs).2, ih hbody, writeStmt]
        next => cases h
      next => cases h
    · split at h
      next hos =>
        cases h
        simpa using write_of_readOuts hos
      next => cases h

/-- What is read as a netlist is of the grammar, and is its words. -/
theorem write_of_readNetlist {ts : List Token} {n : Netlist} (h : readNetlist ts = some n) :
    writeNetlist n = ts ∧ n.inGrammar = true := by
  unfold readNetlist at h
  split at h
  · split at h
    next hds =>
      split at h
      next hbody =>
        obtain ⟨hg, hn⟩ := Option.ite_none_right_eq_some.mp h
        cases hn
        exact ⟨by simp [writeNetlist, (write_of_readDecls hds).2, write_of_readBody hbody], hg⟩
      next => cases h
    next => cases h
  · cases h

/-- Settles O33: netlists written in the same words are read back (O32) as one, and what is read is written as what was
read. -/
theorem notationIsUnambiguous : Obligations.NotationIsUnambiguous := by
  refine ⟨fun n m hn hm h => ?_, fun _ _ => write_of_readNetlist⟩
  have hread := notationReadsWhatItWrites n hn
  rw [h, notationReadsWhatItWrites m hm] at hread
  exact (Option.some.inj hread).symm

end Sys2Proof.Machine
end

section
/-! Decoding and the step: every vector of a unit's width is one of its operations (R64, R68, R69), and what a step does with
an operation, a statement or a netlist asked for (R64, R72, R75, R133). -/

namespace Sys2Proof.Machine

/-- A vector of the width of a unit's `IN` is that unit's operation, and the encoder writes it so. -/
theorem decode_driven_of_width {u : UnitName} {bits : List Signal} (h : bits.length = u.inWidth) :
    ∃ i, decode (.driven u bits) = .ok i ∧ i.unit = u ∧ encode i = .driven u bits := by
  cases u with
  | ha =>
    obtain ⟨b, a, rfl⟩ := List.length_eq_two.mp h
    exact ⟨_, rfl, rfl, rfl⟩
  | fa =>
    obtain ⟨ci, b, a, rfl⟩ := List.length_eq_three.mp h
    exact ⟨_, rfl, rfl, rfl⟩
  | rca4 =>
    match bits, h with
    | [_, _, _, _, _, _, _, _], _ => exact ⟨_, rfl, rfl, rfl⟩

/-- A vector of another width is rejected (log 11). -/
theorem decode_driven_of_other_width {u : UnitName} {bits : List Signal} (h : bits.length ≠ u.inWidth) :
    decode (.driven u bits) = .error (.inputWidth u bits.length) := by
  rw [decode]
  unfold decodeDriven
  split
  case h_4 => rfl
  all_goals exact absurd rfl h

/-- Settles O30: by the length of the vector. -/
theorem everyInputVectorIsLegal : Obligations.EveryInputVectorIsLegal :=
  fun _ _ => ⟨decode_driven_of_width, decode_driven_of_other_width⟩

theorem runOp_of_decode {raw : RawOp} {i : Instr} (h : decode raw = .ok i) (s : State) : runOp raw s = exec i s := by
  simp only [runOp, h]

/-! With no netlist in progress, a step is the host's next request. -/

section
variable {s : State} {rest : List Request} (hs : ¬ s.running)
include hs

theorem step_drive {u : UnitName} {bits : List Signal} (hr : s.requests = .drive u bits :: rest) :
    step s = runOp (.driven u bits) { s with requests := rest } := by
  simp only [step, nextAction_of_not_running hs, nextRequest, hr]

theorem step_call {u : UnitName} {args : List Int} (hr : s.requests = .call u args :: rest) :
    step s = runOp (.call u args) { s with requests := rest } := by
  simp only [step, nextAction_of_not_running hs, nextRequest, hr]

theorem step_netlist {n : Netlist} {inputs : List (List Signal)} (hr : s.requests = .netlist n inputs :: rest) :
    step s = startNetlist n inputs { s with requests := rest } := by
  simp only [step, nextAction_of_not_running hs, nextRequest, hr]

end

/-- With a statement left in the netlist in progress, it comes next. -/
theorem step_todo {s : State} {st : Stmt} {rest : List Stmt} (ht : s.todo = st :: rest) :
    step s = runOp (.wired st) { s with todo := rest } := by
  simp only [step, nextAction, ht]

/-- Settles O34: the step runs what is asked for next, which is decoded. -/
theorem stepRunsTheDecodedOperation : Obligations.StepRunsTheDecodedOperation := by
  refine fun s i => ⟨fun u bits rest hs hr hd => ?_, fun u args rest hs hr hd => ?_, fun st rest ht hd => ?_⟩
  · rw [step_drive hs hr, runOp_of_decode hd]
  · rw [step_call hs hr, runOp_of_decode hd]
  · rw [step_todo ht, runOp_of_decode hd]

/-- A netlist of the grammar that fails a check is refused with the checks it fails. -/
theorem netlistRefusal_of_failed {n : Netlist} (inputs : List (List Signal)) (hg : n.inGrammar = true)
    (h : n.failed ≠ []) : netlistRefusal n inputs = some (.illFormedNetlist n.failed) := by
  simp [netlistRefusal, hg, h]

/-- Settles O39: a failing check is among the netlist's failed ones and refuses it; with none, and inputs that match, nothing
does. -/
theorem netlistChecksDecideTheStart : Obligations.NetlistChecksDecideTheStart := by
  intro s n inputs rest hs hr hg
  rw [step_netlist hs hr, startNetlist]
  refine ⟨fun ⟨k, hk⟩ => ?_, fun hp hin => ?_⟩
  · have hne : n.failed ≠ [] := List.ne_nil_of_mem (mem_failedChecks.mpr hk)
    rw [netlistRefusal_of_failed inputs hg hne]
    exact ⟨rfl, fun k => mem_failedChecks⟩
  · rw [netlistRefusal_eq_none_iff.mpr ⟨hg, failedChecks_eq_nil_iff.mpr hp, hin⟩]
    rfl

/-- The outputs are one for each line in order, under its name, of its expression's value. -/
theorem evalOuts_lines {nets : List (NetName × Net)} {outs : List OutDecl} {vs : List (NetName × List Signal)}
    (h : evalOuts nets outs = .ok vs) : vs.map Prod.fst = outs.map OutDecl.name ∧
      ∀ (k : Nat) (o : OutDecl), outs[k]? = some o → ∃ v, vs[k]? = some (o.name, v) ∧ evalExpr nets o.expr = some v := by
  induction evalOuts_ok_iff.mp h with
  | nil => simp
  | @cons o p outs vs hp hrest ih =>
    obtain ⟨hname, hval⟩ := hp
    obtain ⟨hnames, hlines⟩ := ih (evalOuts_ok_iff.mpr hrest)
    refine ⟨by simp [hname, hnames], fun k q hk => ?_⟩
    cases k with
    | zero =>
      obtain rfl : o = q := by simpa using hk
      exact ⟨p.2, by simp [← hname], hval⟩
    | succ k => exact hlines k q hk

/-- The outputs have values when each line's expression has one. -/
theorem evalOuts_of_values {nets : List (NetName × Net)} {outs : List OutDecl}
    (h : ∀ o ∈ outs, ∃ v, evalExpr nets o.expr = some v) : ∃ vs, evalOuts nets outs = .ok vs := by
  cases hv : evalOuts nets outs with
  | ok vs => exact ⟨vs, rfl⟩
  | error name =>
    obtain ⟨pre, o, post, rfl, -, hnone, -⟩ := evalOuts_error_iff.mp hv
    obtain ⟨v, hsome⟩ := h o (by simp)
    simp [hnone] at hsome

/-- Settles O52: the whole evaluation and the machine's last step both give what `evalOuts` gives. -/
theorem outputsAreTheirExpressions : Obligations.OutputsAreTheirExpressions := by
  refine ⟨fun n inputs vs h => ?_, fun s ht ho => ?_⟩
  · obtain ⟨-, nets, hnets, hvs⟩ := evalNetlist_next_iff.mp h
    exact ⟨nets, hnets, evalOuts_lines hvs⟩
  · rw [step_of_outs ht ho]
    refine ⟨fun hall => ?_, fun pre post o houts hpre hnone => ?_⟩
    · obtain ⟨vs, hvs⟩ := evalOuts_of_values hall
      exact ⟨vs, by simp only [finishNetlist, hvs], evalOuts_lines hvs⟩
    · have herr := evalOuts_error_iff.mpr ⟨pre, o, post, houts, rfl, hnone, hpre⟩
      simp only [finishNetlist, herr]

end Sys2Proof.Machine
end

section
/-! The machine's steps in a netlist: each keeps the invariant, and together they give what `evalNetlist`, written from R75
as one function, gives. -/

namespace Sys2Proof.Machine

/-- The outputs left are none only when nothing else is left either. -/
theorem State.Inv.todo_of_outs {s : State} (h : s.Inv) (ho : s.outs = []) : s.todo = [] := (h.2 ho).1

/-- What is left passes each of the six checks. -/
theorem State.Inv.passes {s : State} (h : s.Inv) (k : Check) : passes (netTypes s.nets) s.todo s.outs k = true :=
  failedChecks_eq_nil_iff.mp h.1 k

/-- A state with outputs left meets the invariant when what is left passes the six checks. -/
theorem State.inv_of_passes {s : State} (h : ∀ k, Sys2Proof.passes (netTypes s.nets) s.todo s.outs k = true)
    (ho : s.outs ≠ []) : s.Inv :=
  ⟨failedChecks_eq_nil_iff.mpr h, fun he => absurd he ho⟩

/-- A netlist that starts has an output: the grammar asks for one (R71). -/
theorem outs_ne_nil_of_start {n : Netlist} {inputs : List (List Signal)} (h : netlistRefusal n inputs = none) :
    n.outs ≠ [] := by
  obtain ⟨hg, -, -⟩ := netlistRefusal_eq_none_iff.mp h
  obtain ⟨-, -, houts, -⟩ := inGrammar_iff.mp hg
  exact houts

/-- Settles O41: an idle or a single evaluation leaves the netlist's part as it is; a statement's binding leaves the checks of
the rest; a netlist that starts has passed them; at its end nothing is left and nothing bound. -/
theorem stepKeepsInvariant : Obligations.StepKeepsInvariant := by
  intro s t hs ht
  rcases step_next ht with ⟨-, -, -, rfl⟩ | ⟨-, -, q, rest, r, -, rfl⟩ | ⟨st, rest, o, htodo, -, hu, rfl⟩ |
    ⟨-, -, n, inputs, rest, -, hstart, rfl⟩ | ⟨htodo, -, vs, -, rfl⟩
  · exact hs
  · exact hs
  · have hp := hs.passes
    rw [htodo] at hp
    obtain ⟨-, -, hrest⟩ := passes_bind hp
    refine State.inv_of_passes (hrest o hu) fun ho => ?_
    simpa [htodo] using hs.todo_of_outs ho
  · exact State.inv_of_passes (passes_inputNets hstart) (outs_ne_nil_of_start hstart)
  · exact State.inv_of_empty htodo rfl rfl

/-- With statements left that pass the checks, a step is what `evalStmt` says of the first: its outputs bound, or its fault. -/
theorem step_statement {s : State} {st : Stmt} {rest : List Stmt} (ht : s.todo = st :: rest)
    (hp : ∀ k, passes (netTypes s.nets) (st :: rest) s.outs k = true) :
    (∃ o, o.unit = st.unit ∧ evalStmt s.nets st = .next o ∧
      step s = .next (State.bind { s with todo := rest } st.name o)) ∨
    (∃ f, evalStmt s.nets st = .fault f ∧ step s = .fault f) := by
  obtain ⟨hst, hnew, -⟩ := passes_bind hp
  obtain ⟨i, hd, h⟩ := statement_of_checked hst hnew
  rw [step_todo ht, runOp_of_decode hd]
  obtain ⟨o, hu, he, hx⟩ | ⟨r, -, he, hx⟩ := h
  · exact .inl ⟨o, hu, he, hx _ rfl⟩
  · exact .inr ⟨_, he, hx _ rfl⟩

/-- How the machine's run through a netlist ends, given how the netlist's evaluation ends. -/
def ending (s : State) : Evaluation (List (NetName × List Signal)) → Ending
  | .next vs => .next { s with todo := [], outs := [], nets := [], result := some (.netlist vs) }
  | .fault f => .fault f
  | .refused r => .refused r

/-- What is left of a netlist on the names bound so far, its statements and then its outputs, as `evalNetlist` evaluates it. -/
def evalRest (nets : List (NetName × Net)) (stmts : List Stmt) (outs : List OutDecl) :
    Evaluation (List (NetName × List Signal)) :=
  match evalStmts nets stmts with
  | .fault f => .fault f
  | .refused r => .refused r
  | .next nets =>
    match evalOuts nets outs with
    | .ok vs => .next vs
    | .error name => .refused (.unresolved name)

theorem evalNetlist_of_start {n : Netlist} {inputs : List (List Signal)} (h : netlistRefusal n inputs = none) :
    evalNetlist n inputs = evalRest (inputNets n inputs) n.stmts n.outs := by
  simp only [evalNetlist, h]
  rfl

theorem evalNetlist_of_refused {n : Netlist} {inputs : List (List Signal)} {r : Refusal}
    (h : netlistRefusal n inputs = some r) : evalNetlist n inputs = .refused r := by
  simp only [evalNetlist, h]

section
variable {nets : List (NetName × Net)} {st : Stmt} {rest : List Stmt} {outs : List OutDecl}

theorem evalRest_ok {vs : List (NetName × List Signal)} (h : evalOuts nets outs = .ok vs) :
    evalRest nets [] outs = .next vs := by simp only [evalRest, evalStmts, h]

theorem evalRest_error {name : NetName} (h : evalOuts nets outs = .error name) :
    evalRest nets [] outs = .refused (.unresolved name) := by simp only [evalRest, evalStmts, h]

theorem evalRest_next {o : Outputs} (h : evalStmt nets st = .next o) :
    evalRest nets (st :: rest) outs = evalRest (nets ++ [(st.name, .inst o)]) rest outs := by
  simp only [evalRest, evalStmts, h]

theorem evalRest_fault {f : Fault} (h : evalStmt nets st = .fault f) :
    evalRest nets (st :: rest) outs = .fault f := by simp only [evalRest, evalStmts, h]

end

/-- The last step of a netlist, its outputs having values or not. -/
theorem step_finish {s : State} (ht : s.todo = []) (ho : s.outs ≠ []) :
    step s = ending s (evalRest s.nets [] s.outs) := by
  rw [step_of_outs ht ho, finishNetlist]
  cases h : evalOuts s.nets s.outs with
  | ok vs => simp only [evalRest_ok h, ending, ht]
  | error name => simp only [evalRest_error h, ending]

/-- Where what is left passes the checks, one step a statement and one for the outputs end as the evaluation of what is left
ends. -/
theorem run_of_passes {s : State} (ho : s.outs ≠ []) (hp : ∀ k, passes (netTypes s.nets) s.todo s.outs k = true) :
    Host.Core.run Sys2Proof.core (s.todo.length + 1) s = ending s (evalRest s.nets s.todo s.outs) := by
  induction ht : s.todo generalizing s with
  | nil =>
    have hstep := step_finish ht ho
    cases h : ending s (evalRest s.nets [] s.outs) with
    | next t => exact run_of_next 0 (hstep.trans h)
    | fault f => exact run_of_fault 0 (hstep.trans h)
    | refused r => exact run_of_refused 0 (hstep.trans h)
  | cons st rest ih =>
    rw [ht] at hp
    obtain ⟨-, -, hrest⟩ := passes_bind hp
    obtain ⟨o, hu, he, hstep⟩ | ⟨f, he, hstep⟩ := step_statement ht hp
    · rw [evalRest_next he, List.length_cons, run_of_next _ hstep]
      exact ih (s := State.bind { s with todo := rest } st.name o) ho (hrest o hu) rfl
    · rw [evalRest_fault he, List.length_cons]
      exact run_of_fault _ hstep

/-- The state in which the host has asked for a netlist starts it. -/
theorem step_askNetlist (s : State) (n : Netlist) (inputs : List (List Signal)) (rest : List Request) :
    step (s.askNetlist n inputs rest) =
      startNetlist n inputs { s with requests := rest, todo := [], outs := [], nets := [] } := rfl

/-- Settles O43: the first step refuses the netlist as `evalNetlist` does, or binds its inputs, on which its statements and
outputs pass the checks. -/
theorem stepsEvaluateTheNetlist : Obligations.StepsEvaluateTheNetlist := by
  intro s n inputs rest
  have hstep := step_askNetlist s n inputs rest
  cases h : netlistRefusal n inputs with
  | some r =>
    rw [startNetlist, h] at hstep
    rw [run_of_refused _ hstep, evalNetlist_of_refused h]
  | none =>
    rw [startNetlist, h] at hstep
    rw [run_of_next _ hstep, evalNetlist_of_start h]
    exact run_of_passes (outs_ne_nil_of_start h) (passes_inputNets h)

end Sys2Proof.Machine
end

section
/-! What the units' outputs are worth. A half adder and a full adder add bits exactly, so a chain of full adders adds
nibbles exactly (R82, R92, R102), in the layouts of R61 to R63 and at both levels (R67). -/

namespace Sys2Proof.Machine

/-- The first part of a concatenation is the more significant (R13). -/
theorem value_append {m n : Nat} (x : BitVec m) (y : BitVec n) : value (x ++ y) = 2 ^ n * value x + value y := by
  rw [value, BitVec.toNat_append, ← Nat.shiftLeft_add_eq_or_of_lt y.isLt, Nat.shiftLeft_eq, Nat.mul_comm]

theorem SumCarryPair.value_out (o : SumCarryPair) : value o.out = 2 * value o.carry + value o.sum :=
  value_append o.carry o.sum

theorem Rca4Outputs.value_out (o : Rca4Outputs) : value o.out = 16 * value o.co + value o.s := value_append o.co o.s

/-- The layout `OUT = {CO, S}` of HA and FA (R61, R62). -/
theorem SumCarryPair.out_layout (o : SumCarryPair) :
    o.out.extractLsb' 1 1 = o.carry ∧ o.out.extractLsb' 0 1 = o.sum :=
  ⟨BitVec.extractLsb'_append_eq_left, BitVec.extractLsb'_append_eq_right⟩

/-- The layout `OUT = {CO, S}` of RCA4 (R63). -/
theorem Rca4Outputs.out_layout (o : Rca4Outputs) : o.out.extractLsb' 4 1 = o.co ∧ o.out.extractLsb' 0 4 = o.s :=
  ⟨BitVec.extractLsb'_append_eq_left, BitVec.extractLsb'_append_eq_right⟩

/-- A bit of four neighbouring bits of a vector is the vector's bit at that place. -/
theorem nibbleBit_extractLsb' {n : Nat} (w : BitVec n) (lo : Nat) {i : Nat} (hi : i < 4) :
    nibbleBit (w.extractLsb' lo 4) i = w.extractLsb' (lo + i) 1 := by
  refine BitVec.eq_of_getLsbD_eq fun j hj => ?_
  obtain rfl : j = 0 := by omega
  simp [nibbleBit, hi]

theorem value_nibbleOf (b3 b2 b1 b0 : Bit) :
    value (nibbleOf b3 b2 b1 b0) = 8 * value b3 + 4 * value b2 + 2 * value b1 + value b0 := by
  simp only [nibbleOf, value_append]
  ring

/-- A nibble's value weighs its bit `i` as `2^i` (R14). -/
theorem value_nibble (v : Nibble) : value v =
    8 * value (nibbleBit v 3) + 4 * value (nibbleBit v 2) + 2 * value (nibbleBit v 1) + value (nibbleBit v 0) := by
  rw [← value_nibbleOf, nibbleOf_nibbleBit]

/-- HA's exact sum (R82). -/
theorem halfAdd_exact (a b : Bit) : 2 * value (halfAdd a b).carry + value (halfAdd a b).sum = value a + value b := by
  revert a b
  decide

/-- FA's exact sum (R92). -/
theorem fullAdd_exact (a b c : Bit) :
    2 * value (fullAdd a b c).carry + value (fullAdd a b c).sum = value a + value b + value c := by
  revert a b c
  decide

/-- Each stage of RCA4 adds its two bits and the carry net before it, into its sum bit and the carry net after it (R100). -/
theorem stage_exact (x y : Nibble) (i : Nat) :
    2 * value (carryNet x y (i + 1)) + value (stage x y i).sum =
      value (nibbleBit x i) + value (nibbleBit y i) + value (carryNet x y i) :=
  fullAdd_exact _ _ _

/-- RCA4's exact sum (R102): the carries between the stages cancel. -/
theorem rippleAdd_exact (x y : Nibble) :
    value (rippleAdd x y).s + 16 * value (rippleAdd x y).co = value x + value y := by
  have stage0 : 2 * value (carryNet x y 1) + _ = _ := stage_exact x y 0
  have stage1 : 2 * value (carryNet x y 2) + _ = _ := stage_exact x y 1
  have stage2 : 2 * value (carryNet x y 3) + _ = _ := stage_exact x y 2
  have stage3 : 2 * value (carryNet x y 4) + _ = _ := stage_exact x y 3
  have carryIn : value (carryNet x y 0) = 0 := rfl
  have sum : value (rippleAdd x y).s = _ := value_nibbleOf ..
  have carryOut : value (rippleAdd x y).co = value (carryNet x y 4) := rfl
  have hx := value_nibble x
  have hy := value_nibble y
  omega

theorem value_out_halfAdd (a b : Bit) : value (halfAdd a b).out = value a + value b := by
  rw [SumCarryPair.value_out, halfAdd_exact]

theorem value_out_fullAdd (a b c : Bit) : value (fullAdd a b c).out = value a + value b + value c := by
  rw [SumCarryPair.value_out, fullAdd_exact]

theorem value_out_rippleAdd (x y : Nibble) : value (rippleAdd x y).out = value x + value y := by
  rw [Rca4Outputs.value_out, Nat.add_comm, rippleAdd_exact]

/-! What an evaluation on operands in range answers, at the ports and on integers. -/

theorem exec_ha_port (a b : Bit) (s : State) :
    exec (.ha (.port (.bit a) (.bit b))) s = .next (s.read (.ports (.ha (halfAdd a b)))) := rfl

theorem exec_fa_port (a b c : Bit) (s : State) :
    exec (.fa (.port (.bit a) (.bit b) (.bit c))) s = .next (s.read (.ports (.fa (fullAdd a b c)))) := rfl

theorem exec_rca4_port (x y : Nibble) (s : State) :
    exec (.rca4 (.port (driveNibble x) (driveNibble y))) s = .next (s.read (.ports (.rca4 (rippleAdd x y)))) := by
  simp [exec, execRca4, rca4Port]

theorem exec_ha_integer {a b : Int} {x y : Bit} (ha : integerBit a = some x) (hb : integerBit b = some y) (s : State) :
    exec (.ha (.integer a b)) s = .next (s.read (.sumCarry .ha (halfAdd x y))) := by
  simp [exec, execHa, haInteger, ha, hb]

theorem exec_fa_integer {a b c : Int} {x y z : Bit} (ha : integerBit a = some x) (hb : integerBit b = some y)
    (hc : integerBit c = some z) (s : State) :
    exec (.fa (.integer a b c)) s = .next (s.read (.sumCarry .fa (fullAdd x y z))) := by
  simp [exec, execFa, faInteger, ha, hb, hc]

theorem exec_rca4_integer {a b : Int} {x y : Nibble} (ha : integerNibble a = some x) (hb : integerNibble b = some y)
    (s : State) : exec (.rca4 (.integer a b)) s = .next (s.read (.addition (rippleAdd x y).addition)) := by
  simp [exec, execRca4, rca4Integer, ha, hb]

/-- RCA4's `IN = {A, B}` (R63): its high four bits drive `A`, its low four `B`. -/
theorem decode_driven_rca4 (w : BitVec 8) :
    decode (.driven .rca4 ((List.range 8).map fun k => .bit (w.extractLsb' k 1))) =
      .ok (.rca4 (.port (driveNibble (w.extractLsb' 4 4)) (driveNibble (w.extractLsb' 0 4)))) := by
  simp (disch := decide) only [driveNibble, nibbleBit_extractLsb']
  rfl

/-- Settles O13: the layouts of `IN` and `OUT`, and the exact sums of the units on what the layouts name. -/
theorem packedVectorsGiveExactSums : Obligations.PackedVectorsGiveExactSums := by
  refine fun s => ⟨fun w => ?_, fun w => ?_, fun w => ?_⟩
  · obtain ⟨hco, hs⟩ := (halfAdd (w.extractLsb' 1 1) (w.extractLsb' 0 1)).out_layout
    exact ⟨_, rfl, exec_ha_port _ _ s, hco, hs, value_out_halfAdd _ _⟩
  · obtain ⟨hco, hs⟩ := (fullAdd (w.extractLsb' 2 1) (w.extractLsb' 1 1) (w.extractLsb' 0 1)).out_layout
    exact ⟨_, rfl, exec_fa_port _ _ _ s, hco, hs, value_out_fullAdd _ _ _⟩
  · obtain ⟨hco, hs⟩ := (rippleAdd (w.extractLsb' 4 4) (w.extractLsb' 0 4)).out_layout
    exact ⟨_, decode_driven_rca4 w, exec_rca4_port _ _ s, hco, hs, value_out_rippleAdd _ _⟩

/-- What an integer operation in range is at the ports, unit by unit. -/
theorem atPorts_integer {i j : Instr} (h : atPorts i = some j) (hl : levelOf i = .integer) :
    (∃ a b x y, i = .ha (.integer a b) ∧ integerBit a = some x ∧ integerBit b = some y ∧
      j = .ha (.port (.bit x) (.bit y))) ∨
    (∃ a b c x y z, i = .fa (.integer a b c) ∧ integerBit a = some x ∧ integerBit b = some y ∧ integerBit c = some z ∧
      j = .fa (.port (.bit x) (.bit y) (.bit z))) ∨
    (∃ a b x y, i = .rca4 (.integer a b) ∧ integerNibble a = some x ∧ integerNibble b = some y ∧
      j = .rca4 (.port (driveNibble x) (driveNibble y))) := by
  unfold atPorts at h
  split at h
  · split at h
    · cases h
      exact .inl ⟨_, _, _, _, rfl, ‹_›, ‹_›, rfl⟩
    · cases h
  · split at h
    · cases h
      exact .inr (.inl ⟨_, _, _, _, _, _, rfl, ‹_›, ‹_›, ‹_›, rfl⟩)
    · cases h
  · split at h
    · cases h
      exact .inr (.inr ⟨_, _, _, _, rfl, ‹_›, ‹_›, rfl⟩)
    · cases h
  all_goals cases hl

/-- Settles O14: both levels give the unit's function on the same bits or nibbles. -/
theorem integerResultsAreThePortOutputs : Obligations.IntegerResultsAreThePortOutputs := by
  intro i j s h hl
  obtain ⟨a, b, x, y, rfl, ha, hb, rfl⟩ | ⟨a, b, c, x, y, z, rfl, ha, hb, hc, rfl⟩ |
    ⟨a, b, x, y, rfl, ha, hb, rfl⟩ := atPorts_integer h hl
  · exact ⟨_, exec_ha_port x y s, .inl ⟨_, .inl rfl, exec_ha_integer ha hb s⟩⟩
  · exact ⟨_, exec_fa_port x y z s, .inl ⟨_, .inr rfl, exec_fa_integer ha hb hc s⟩⟩
  · exact ⟨_, exec_rca4_port x y s, .inr ⟨_, rfl, exec_rca4_integer ha hb s, x, y, rfl, value_out_rippleAdd x y⟩⟩

/-- An integer is taken as a bit when it is 0 or 1, and then at its own value (R66, R121). -/
theorem integerBit_eq_some_iff {v : Int} {x : Bit} : integerBit v = some x ↔ (v = 0 ∨ v = 1) ∧ (value x : Int) = v := by
  constructor
  · intro h
    have hv : v = 0 ∨ v = 1 := by
      by_contra hv
      simp [integerBit_of_out hv] at h
    obtain rfl | rfl := hv <;> cases h <;> decide
  · rintro ⟨rfl | rfl, hx⟩
    · obtain rfl : x = 0 := BitVec.eq_of_toNat_eq (by simpa using hx)
      rfl
    · obtain rfl : x = 1 := BitVec.eq_of_toNat_eq (by simpa using hx)
      rfl

/-- In range, an integer's four bits have its value. -/
theorem value_ofInt_nibble {v : Int} (h0 : 0 ≤ v) (h15 : v ≤ 15) : (value (BitVec.ofInt 4 v) : Int) = v := by
  rw [value, BitVec.toNat_ofInt]
  omega

/-- An integer is taken as a nibble when it is in range, and then at its own value (R66, R122). -/
theorem integerNibble_eq_some_iff {v : Int} {x : Nibble} :
    integerNibble v = some x ↔ (0 ≤ v ∧ v ≤ 15) ∧ (value x : Int) = v := by
  by_cases hv : 0 ≤ v ∧ v ≤ 15
  · have hval := value_ofInt_nibble hv.1 hv.2
    rw [integerNibble_of_in hv.1 hv.2]
    simp only [hv, true_and, Option.some.injEq]
    constructor
    · rintro rfl
      exact hval
    · intro hx
      exact BitVec.eq_of_toNat_eq (by simp only [value] at *; omega)
  · simp only [integerNibble_of_out hv, hv, false_and, reduceCtorEq]

/-- The bits of an integer taken as a nibble are its own, by shift-and-mask (R66). -/
theorem nibbleBit_of_integerNibble {v : Int} {x : Nibble} {i : Nat} (h : integerNibble v = some x) (hi : i < 4) :
    nibbleBit x i = shiftAndMask v.toNat i := by
  unfold integerNibble at h
  split at h
  · cases h
    obtain ⟨h3, h2, h1, h0⟩ := nibbleBit_nibbleOf (shiftAndMask v.toNat 3) (shiftAndMask v.toNat 2)
      (shiftAndMask v.toNat 1) (shiftAndMask v.toNat 0)
    interval_cases i <;> assumption
  · cases h

/-- Settles O15: what the checks let through has the integer's own value and bits. -/
theorem integerOperandAssembly : Obligations.IntegerOperandAssembly :=
  ⟨fun _ _ => integerNibble_eq_some_iff, fun _ _ _ => nibbleBit_of_integerNibble, fun _ _ => integerBit_eq_some_iff⟩

end Sys2Proof.Machine
end

section
/-! Statements of a netlist (R71, R75): the unit's function on the arguments' values, bound to the statement's name or
raised with the statement as the site (R123, R125); and what the arguments' expressions mean (R12, R13). -/

namespace Sys2Proof.Machine

/-- The name a state binds is bound there to what it was bound to. -/
theorem assoc_bind_self {s : State} {site : NetName} (o : Outputs) (h : assoc s.nets site = none) :
    assoc (s.bind site o).nets site = some (.inst o) := by
  simp [assoc_append_of_none _ h]

/-- Binding a name leaves every other name as it was. -/
theorem assoc_bind_of_ne (s : State) {site n : NetName} (o : Outputs) (h : n ≠ site) :
    assoc (s.bind site o).nets n = assoc s.nets n := by
  cases hn : assoc s.nets n with
  | some x => simp [assoc_append_of_some _ hn]
  | none => simp [assoc_append_of_none _ hn, h.symm]

/-- A statement that goes on binds its name, unbound before, to outputs of its unit. -/
theorem exec_statement_next {i : Instr} {site : NetName} {s t : State} (h : siteOf i = some site)
    (ht : exec i s = .next t) : assoc s.nets site = none ∧ ∃ o, o.unit = i.unit ∧ t = s.bind site o := by
  rcases exec_statement h s with e | ⟨e, he, hout⟩
  · rw [e] at ht
    cases ht
  · rw [he] at ht
    obtain ⟨hnew, o, rfl, rfl⟩ := instantiate_next ht
    rcases hout with ⟨o', ho, hu⟩ | ⟨r, hr, -⟩
    · cases ho
      exact ⟨hnew, o, hu, rfl⟩
    · cases hr

/-- Settles O22: a statement changes its own name's binding only. -/
theorem statementFrame : Obligations.StatementFrame := by
  intro i s t site h ht
  obtain ⟨hnew, o, hu, rfl⟩ := exec_statement_next h ht
  exact ⟨rfl, rfl, rfl, rfl, hnew, ⟨o, assoc_bind_self o hnew, hu⟩, fun n hn => assoc_bind_of_ne s o hn⟩

/-! The record of a fault at the ports names every port whose signals are not all 0 or 1 (R125). -/

theorem haPort_of_offending {a b : Signal} (site : Option NetName) (h : (binarySignal a && binarySignal b) = false) :
    haPort site a b = .error
      { unit := .ha, level := .port,
        ports := (if binarySignal a then [] else [PortName.a]) ++ (if binarySignal b then [] else [PortName.b]),
        values := none, site := site } := by
  simp only [binarySignal] at h
  cases ha : signalBit a <;> cases hb : signalBit b
  case some.some => simp [ha, hb] at h
  all_goals simp [haPort, ha, hb, portFault, binarySignal]

theorem faPort_of_offending {a b c : Signal} (site : Option NetName)
    (h : (binarySignal a && binarySignal b && binarySignal c) = false) :
    faPort site a b c = .error
      { unit := .fa, level := .port,
        ports := (if binarySignal a then [] else [PortName.a]) ++ (if binarySignal b then [] else [PortName.b]) ++
          (if binarySignal c then [] else [PortName.ci]),
        values := none, site := site } := by
  simp only [binarySignal] at h
  cases ha : signalBit a <;> cases hb : signalBit b <;> cases hc : signalBit c
  case some.some.some => simp [ha, hb, hc] at h
  all_goals simp [faPort, ha, hb, hc, portFault, binarySignal]

theorem rca4Port_of_offending {a b : NibbleSignals} (site : Option NetName)
    (h : (binaryNibble a && binaryNibble b) = false) :
    rca4Port site a b = .error
      { unit := .rca4, level := .port,
        ports := (if binaryNibble a then [] else [PortName.a]) ++ (if binaryNibble b then [] else [PortName.b]),
        values := none, site := site } := by
  simp only [← signalNibble_isSome] at h ⊢
  cases ha : signalNibble a <;> cases hb : signalNibble b
  case some.some => simp [ha, hb] at h
  all_goals simp [rca4Port, ha, hb, portFault]

/-! A statement whose arguments have values of their ports' widths is its unit's function on them. -/

section
variable {s : State} {site : NetName} (hnew : assoc s.nets site = none)
include hnew

theorem exec_ha_wired {ea eb : Expr} {a b : Signal} (ha : evalExpr s.nets ea = some [a])
    (hb : evalExpr s.nets eb = some [b]) :
    exec (.ha (.wired site ea eb)) s = settle (haPort (some site) a b) fun o => s.bind site o := by
  simp only [exec, execHa, resolveBit_of_eval ha, resolveBit_of_eval hb, instantiate_of_new _ hnew]

theorem exec_fa_wired {ea eb ec : Expr} {a b c : Signal} (ha : evalExpr s.nets ea = some [a])
    (hb : evalExpr s.nets eb = some [b]) (hc : evalExpr s.nets ec = some [c]) :
    exec (.fa (.wired site ea eb ec)) s = settle (faPort (some site) a b c) fun o => s.bind site o := by
  simp only [exec, execFa, resolveBit_of_eval ha, resolveBit_of_eval hb, resolveBit_of_eval hc,
    instantiate_of_new _ hnew]

theorem exec_rca4_wired {ea eb : Expr} {a b : NibbleSignals} (ha : evalExpr s.nets ea = some [a.b0, a.b1, a.b2, a.b3])
    (hb : evalExpr s.nets eb = some [b.b0, b.b1, b.b2, b.b3]) :
    exec (.rca4 (.wired site ea eb)) s = settle (rca4Port (some site) a b) fun o => s.bind site o := by
  simp only [exec, execRca4, resolveNibble_of_eval ha, resolveNibble_of_eval hb, instantiate_of_new _ hnew]

end

/-- Settles O23: HA's function on the argument values, bound or raised. -/
theorem halfAdderStatement : Obligations.HalfAdderStatement := by
  intro site ea eb a b s ha hb hnew
  rw [exec_ha_wired hnew ha hb]
  refine ⟨fun x y hx hy => ?_, fun h => ?_⟩
  · subst hx hy
    rfl
  · rw [haPort_of_offending _ h, settle_error]

/-- Settles O24: FA's function on the argument values, bound or raised. -/
theorem fullAdderStatement : Obligations.FullAdderStatement := by
  intro site ea eb ec a b c s ha hb hc hnew
  rw [exec_fa_wired hnew ha hb hc]
  refine ⟨fun x y z hx hy hz => ?_, fun h => ?_⟩
  · subst hx hy hz
    rfl
  · rw [faPort_of_offending _ h, settle_error]

/-- Settles O25: RCA4's function on the argument values, whose sum is exact, bound or raised. -/
theorem rippleCarryAdderStatement : Obligations.RippleCarryAdderStatement := by
  intro site ea eb a b s ha hb hnew
  rw [exec_rca4_wired hnew ha hb]
  refine ⟨fun x y hx hy => ⟨rippleAdd x y, ?_, rippleAdd_exact x y⟩, fun h => ?_⟩
  · subst hx hy
    simp only [rca4Port, signalNibble_driveNibble, settle_ok]
    rfl
  · rw [rca4Port_of_offending _ h, settle_error]

/-! What expressions mean, bit 0 first (R12, R13, R71). -/

/-- Signal `k` of a slice is signal `lo + k` of its operand. -/
theorem evalExpr_slice {nets : List (NetName × Net)} {e : Expr} {v : List Signal} {hi lo : Nat}
    (he : evalExpr nets e = some v) (hlo : lo ≤ hi) (hhi : hi < v.length) :
    ∃ w, evalExpr nets (.slice e hi lo) = some w ∧ w.length = hi - lo + 1 ∧
      ∀ k, k < hi - lo + 1 → w[k]? = v[lo + k]? := by
  refine ⟨(v.drop lo).take (hi - lo + 1), by simp [evalExpr, he, hlo, hhi], by simp; omega, fun k hk => ?_⟩
  rw [List.getElem?_take_of_lt hk, List.getElem?_drop]

/-- The four signals of a nibble's number are its bits. -/
theorem numberSignals_value (v : Nibble) : numberSignals Config.nibbleWidth (value v) =
    [.bit (nibbleBit v 0), .bit (nibbleBit v 1), .bit (nibbleBit v 2), .bit (nibbleBit v 3)] := rfl

theorem evalExpr_const4d (nets : List (NetName × Net)) (v : Nibble) : evalExpr nets (.const4d (value v)) =
    some [.bit (nibbleBit v 0), .bit (nibbleBit v 1), .bit (nibbleBit v 2), .bit (nibbleBit v 3)] := by
  have hv : value v ≤ Config.maxNibble := Nat.le_of_lt_succ v.isLt
  rw [evalExpr, if_pos hv, numberSignals_value]

theorem evalExpr_const4b (nets : List (NetName × Net)) {ds : List Bool} {v : Nibble} (h : binaryValue ds = value v) :
    evalExpr nets (.const4b ds) =
      some [.bit (nibbleBit v 0), .bit (nibbleBit v 1), .bit (nibbleBit v 2), .bit (nibbleBit v 3)] := by
  have hv : value v ≤ Config.maxNibble := Nat.le_of_lt_succ v.isLt
  rw [evalExpr, h, if_pos hv, numberSignals_value]

/-- A further digit is the least significant (R13). -/
theorem binaryValue_append (ds : List Bool) (d : Bool) : binaryValue (ds ++ [d]) = 2 * binaryValue ds + d.toNat := by
  rw [binaryValue, List.foldl_append, List.foldl_cons, List.foldl_nil, binaryValue]

/-- Four digits are the four bits, most significant first. -/
theorem evalExpr_four_digits (nets : List (NetName × Net)) (d3 d2 d1 d0 : Bool) :
    evalExpr nets (.const4b [d3, d2, d1, d0]) =
      some [.bit (BitVec.ofBool d0), .bit (BitVec.ofBool d1), .bit (BitVec.ofBool d2), .bit (BitVec.ofBool d3)] := by
  obtain ⟨h3, h2, h1, h0⟩ := nibbleBit_nibbleOf (BitVec.ofBool d3) (BitVec.ofBool d2) (BitVec.ofBool d1)
    (BitVec.ofBool d0)
  have hv : binaryValue [d3, d2, d1, d0] =
      value (nibbleOf (BitVec.ofBool d3) (BitVec.ofBool d2) (BitVec.ofBool d1) (BitVec.ofBool d0)) := by
    simp [value_nibbleOf, binaryValue]
    omega
  rw [evalExpr_const4b nets hv, h3, h2, h1, h0]

/-- Settles O26: one clause for each form of expression. -/
theorem expressionMeaning : Obligations.ExpressionMeaning := by
  refine fun nets => ⟨?name, ?port, ?port4, ?index, fun _ _ _ _ => evalExpr_slice, ?more, ?one, ?const1, evalExpr_const4d nets,
    evalExpr_four_digits nets, fun _ _ => evalExpr_const4b nets, rfl, binaryValue_append⟩
  case name =>
    intro n v h
    simp only [evalExpr, h]
  case port =>
    rintro n p (h | h) <;> simp only [evalExpr, h, Outputs.signals, and_self]
  case port4 =>
    intro n p h
    simp only [evalExpr, h, Outputs.signals, nibbleBit, and_self]
  case index =>
    intro e v i x he hx
    simp only [evalExpr, he, hx]
  case more =>
    intro e v rest low he hrest
    simp only [evalExpr, evalParts, he, hrest]
  case one =>
    intro e
    simp only [evalExpr, evalParts]
  case const1 =>
    intro n hn
    rw [evalExpr, if_pos hn]
    rfl

end Sys2Proof.Machine
end

section
/-! Netlists on paper (R71, R72): the widths of expressions, and what each of the six checks demands. Four checks look at
every place of a netlist where an expression stands; each is first said there, place by place. -/

namespace Sys2Proof

/-- Settles O48: one clause for each form of expression. -/
theorem expressionWidths : Obligations.ExpressionWidths := by
  refine fun c => ⟨?name, ?port, ?index, ?slice, ?one, ?more, fun _ => rfl, fun _ => rfl, fun _ => rfl⟩
  case name =>
    intro n w h
    simp only [Expr.widthIn, h]
  case port =>
    intro n u p h
    simp only [Expr.widthIn, h]
    cases u <;> cases p <;> rfl
  case index =>
    intro e w i he hi
    simp only [Expr.widthIn, he, if_pos hi]
  case slice =>
    intro e w hi lo he hlo hhi
    simp only [Expr.widthIn, he, if_pos (And.intro hlo hhi)]
  case one =>
    intro e
    simp only [Expr.widthIn, Parts.widthIn]
  case more =>
    intro e rest w v he hrest
    simp only [Expr.widthIn, Parts.widthIn, he, hrest]

/-- No entry stands at two places of a list without repeats. -/
theorem nodup_iff_index_unique {α : Type} {l : List α} :
    l.Nodup ↔ ∀ (i j : Nat) (m : α), l[i]? = some m → l[j]? = some m → i = j := by
  constructor
  · intro h i j m hi hj
    obtain ⟨hlt, -⟩ := List.getElem?_eq_some_iff.mp hi
    exact (List.getElem?_inj hlt h).mp (hi.trans hj.symm)
  · intro h
    rw [List.nodup_iff_getElem?_ne_getElem?]
    intro i j hij hj he
    have hjm := List.getElem?_eq_getElem hj
    exact hij.ne (h i j _ (he.trans hjm) hjm)

theorem Netlist.singleAssignment_iff {n : Netlist} :
    passes n.ctx n.stmts n.outs .singleAssignment = true ↔ n.names.Nodup := by
  simp only [passes, decide_eq_true_eq, Netlist.names, Netlist.ctx, List.map_map]
  rfl

/-- The statements before a place of a netlist are its first statements. -/
theorem Netlist.prefix_of_places {n : Netlist} {pre : List Stmt} {e : Expr} (h : n.places pre e) : pre <+: n.stmts := by
  obtain ⟨st, post, heq, -⟩ | ⟨rfl, -⟩ := h
  · exact heq ▸ List.prefix_append pre (st :: post)
  · exact List.prefix_refl _

/-- Where no name is twice, none is in the context of any place. -/
theorem Netlist.ctxAfter_nodup {n : Netlist} {pre : List Stmt} (hn : n.names.Nodup) (hp : pre <+: n.stmts) :
    ((n.ctxAfter pre).map Prod.fst).Nodup := by
  rw [Netlist.ctxAfter_names]
  refine hn.sublist (.trans (.append_left (hp.sublist.map _) _) ?_)
  exact List.sublist_append_left _ _

theorem Netlist.definedBeforeUse_iff {n : Netlist} : passes n.ctx n.stmts n.outs .definedBeforeUse = true ↔
    ∀ pre e, n.places pre e → e.defined (n.ctxAfter pre) = true := everywhere_places

theorem Netlist.indexRange_iff {n : Netlist} : passes n.ctx n.stmts n.outs .indexRange = true ↔
    ∀ pre e, n.places pre e → e.indexed (n.ctxAfter pre) = true := everywhere_places

theorem Netlist.constantRange_iff {n : Netlist} : passes n.ctx n.stmts n.outs .constantRange = true ↔
    ∀ pre e, n.places pre e → e.constants = true := everywhere_places (check := fun _ => Expr.constants)

theorem Netlist.width_iff {n : Netlist} : passes n.ctx n.stmts n.outs .width = true ↔
    ∀ pre st post, n.stmts = pre ++ st :: post → ∀ e ∈ st.args,
      e.fits (n.ctxAfter pre) st.unit.inPortWidth = true := by
  rw [passes, everywhere_iff]
  simp only [implies_true, and_true]
  rfl

/-- An argument whose references and indices are good fits its port exactly when it has the port's width. -/
theorem Expr.fits_iff_of_checked {c : Ctx} {e : Expr} {w : Nat} (hd : e.defined c = true) (hi : e.indexed c = true) :
    e.fits c w = true ↔ e.widthIn c = some w := by
  obtain ⟨v, hv⟩ := e.widthIn_of_checked hd hi
  simp [Expr.fits, hv]

theorem UnitName.arity_eq (u : UnitName) : u.arity = match u with
    | .ha => 2
    | .fa => 3
    | .rca4 => 2 := by
  cases u <;> rfl

theorem UnitName.inPortWidth_eq (u : UnitName) : u.inPortWidth = match u with
    | .ha => 1
    | .fa => 1
    | .rca4 => 4 := by
  cases u <;> rfl

/-- Settles O49: each check, place by place, says of every expression in the place's own what its lemma says. -/
theorem namedChecksDemand : Obligations.NamedChecksDemand := by
  refine fun n => ⟨?single, ?defined, ?arity, ?width, ?index, ?constant⟩
  case single => exact Netlist.singleAssignment_iff.trans nodup_iff_index_unique
  case defined =>
    intro hn
    rw [Netlist.definedBeforeUse_iff]
    refine forall₂_congr fun pre e => forall_congr' fun hpl => ?_
    have hnodup := Netlist.ctxAfter_nodup hn (Netlist.prefix_of_places hpl)
    simp only [Expr.defined_iff, Netlist.assoc_input_iff hnodup, Netlist.assoc_inst_iff hnodup]
  case arity =>
    simp only [passes, List.all_eq_true, decide_eq_true_eq]
    exact forall₂_congr fun st _ => iff_of_eq (congrArg (st.args.length = ·) st.unit.arity_eq)
  case width =>
    intro hd hi
    rw [Netlist.width_iff]
    refine forall₃_congr fun pre st post => forall_congr' fun heq => forall₂_congr fun e he => ?_
    have hpl : n.places pre e := .inl ⟨st, post, heq, he⟩
    have hfits := Expr.fits_iff_of_checked (w := st.unit.inPortWidth) (Netlist.definedBeforeUse_iff.mp hd pre e hpl)
      (Netlist.indexRange_iff.mp hi pre e hpl)
    rw [UnitName.inPortWidth_eq] at hfits
    exact hfits
  case index =>
    intro hd
    rw [Netlist.indexRange_iff]
    exact forall₃_congr fun pre e hpl => Expr.indexed_iff e (Netlist.definedBeforeUse_iff.mp hd pre e hpl)
  case constant =>
    rw [Netlist.constantRange_iff]
    exact forall₃_congr fun pre e _ => Expr.constants_iff e

end Sys2Proof
end

section
/-! The half adder by itself (R80 to R82): what it answers at its ports and on integers, in range or not, and its laws. -/

namespace Sys2Proof.Machine

/-- Settles O1: two bits are added, and anything else is the record of the offending ports. -/
theorem halfAdderOnPorts : Obligations.HalfAdderOnPorts := by
  refine fun a b s => ⟨rfl, fun x y ha hb => ?bits, fun h => ?offending, SumCarryPair.out_layout⟩
  case bits =>
    subst ha hb
    exact exec_ha_port x y s
  case offending => simp only [exec, execHa, haPort_of_offending none h, settle_error]

/-- An integer in range is taken as the bit of its value (R66). -/
theorem integerBit_of_in {v : Int} (h : v = 0 ∨ v = 1) : integerBit v = some (BitVec.ofInt 1 v) := by
  obtain rfl | rfl := h <;> rfl

/-- The record of a fault of HalfAdder names every argument out of range, with its port (R125). -/
theorem haInteger_of_offending {a b : Int} (h : ¬((a = 0 ∨ a = 1) ∧ (b = 0 ∨ b = 1))) :
    haInteger a b = .error
      { unit := .ha, level := .integer,
        ports := (if a = 0 ∨ a = 1 then [] else [PortName.a]) ++ (if b = 0 ∨ b = 1 then [] else [PortName.b]),
        values := some ((if a = 0 ∨ a = 1 then [] else [a]) ++ (if b = 0 ∨ b = 1 then [] else [b])),
        site := none } := by
  by_cases ha : a = 0 ∨ a = 1
  · have hb : ¬(b = 0 ∨ b = 1) := fun hb => h ⟨ha, hb⟩
    simp [haInteger, integerBit_of_in ha, integerBit_of_out hb, integerFault, ha, hb]
  · by_cases hb : b = 0 ∨ b = 1
    · simp [haInteger, integerBit_of_out ha, integerBit_of_in hb, integerFault, ha, hb]
    · simp [haInteger, integerBit_of_out ha, integerBit_of_out hb, integerFault, ha, hb]

/-- Settles O2: in range, both levels add the same two bits; out of range, the record names what offends. -/
theorem halfAdderOnIntegers : Obligations.HalfAdderOnIntegers := by
  refine fun a b s => ⟨rfl, fun ⟨ha, hb⟩ => ?inRange, fun h => ?offending⟩
  case inRange =>
    exact ⟨_, exec_ha_integer (integerBit_of_in ha) (integerBit_of_in hb) s, exec_ha_port _ _ s, rfl, rfl⟩
  case offending => simp only [exec, execHa, haInteger_of_offending h, settle_error]

/-- HA does not tell its inputs apart (R82). -/
theorem halfAdd_comm (a b : Bit) : halfAdd a b = halfAdd b a := by
  simp only [halfAdd, haCarry, BitVec.xor_comm a b, BitVec.and_comm a b]

/-- HA's outputs are never both 1: together they would be worth 3, and two bits are worth 2 at most (R82). -/
theorem halfAdd_not_both (a b : Bit) : ¬((halfAdd a b).sum = 1 ∧ (halfAdd a b).carry = 1) := by
  rintro ⟨hs, hc⟩
  have sum := halfAdd_exact a b
  rw [hs, hc, show value (1 : Bit) = 1 from rfl] at sum
  have ha : value a < 2 := a.isLt
  have hb : value b < 2 := b.isLt
  omega

/-- One net on both inputs of HA goes to the carry (R82). -/
theorem halfAdd_self (a : Bit) : halfAdd a a = { sum := 0, carry := a } := by
  simp [halfAdd, haCarry]

/-- Settles O3: the laws of `halfAdd`, which is what HA answers at its ports. -/
theorem halfAdderLaws : Obligations.HalfAdderLaws := by
  refine fun a b s => ⟨halfAdd a b, exec_ha_port a b s, rfl, rfl, halfAdd_exact a b, value_out_halfAdd a b,
    halfAdd_not_both a b, ?exchanged, ?oneNet⟩
  case exchanged => rw [exec_ha_port, halfAdd_comm]; rfl
  case oneNet =>
    rintro rfl
    rw [halfAdd_self]
    exact ⟨rfl, rfl⟩

end Sys2Proof.Machine
end

section
/-! The full adder by itself (R90 to R92): what it answers at its ports and on integers, in range or not, and its laws.
Most of the laws follow from the exact sum, which determines both outputs. -/

namespace Sys2Proof.Machine

/-- Settles O4: three bits go through the two half adders and the OR, and anything else is the record of the offending
ports. -/
theorem fullAdderOnPorts : Obligations.FullAdderOnPorts := by
  refine fun a b ci s => ⟨rfl, fun x y z ha hb hci => ⟨rfl, rfl, ?bits⟩, fun h => ?offending, SumCarryPair.out_layout⟩
  case bits =>
    subst ha hb hci
    exact exec_fa_port x y z s
  case offending => simp only [exec, execFa, faPort_of_offending none h, settle_error]

/-- An integer is taken as the bit of its value when in range, and not at all otherwise (R66, R121). -/
theorem integerBit_eq_ite (v : Int) : integerBit v = if v = 0 ∨ v = 1 then some (BitVec.ofInt 1 v) else none := by
  split
  case isTrue h => exact integerBit_of_in h
  case isFalse h => exact integerBit_of_out h

/-- The bit of an integer in range is worth the integer (R66). -/
theorem value_ofInt_of_in {v : Int} (h : v = 0 ∨ v = 1) : (value (BitVec.ofInt 1 v) : Int) = v :=
  (integerBit_eq_some_iff.mp (integerBit_of_in h)).2

/-- The record of a fault of FullAdder names every argument out of range, with its port (R125). -/
theorem faInteger_of_offending {a b c : Int} (h : ¬((a = 0 ∨ a = 1) ∧ (b = 0 ∨ b = 1) ∧ (c = 0 ∨ c = 1))) :
    faInteger a b c = .error
      { unit := .fa, level := .integer,
        ports := (if a = 0 ∨ a = 1 then [] else [PortName.a]) ++ (if b = 0 ∨ b = 1 then [] else [PortName.b]) ++
          (if c = 0 ∨ c = 1 then [] else [PortName.ci]),
        values := some ((if a = 0 ∨ a = 1 then [] else [a]) ++ (if b = 0 ∨ b = 1 then [] else [b]) ++
          (if c = 0 ∨ c = 1 then [] else [c])),
        site := none } := by
  by_cases ha : a = 0 ∨ a = 1 <;> by_cases hb : b = 0 ∨ b = 1 <;> by_cases hc : c = 0 ∨ c = 1
  · exact absurd ⟨ha, hb, hc⟩ h
  all_goals simp [faInteger, integerBit_eq_ite, integerFault, ha, hb, hc]

/-- Settles O5: in range, both levels add the same three bits, which are worth the integers; out of range, the record
names what offends. -/
theorem fullAdderOnIntegers : Obligations.FullAdderOnIntegers := by
  refine fun a b c s => ⟨rfl, fun ⟨ha, hb, hc⟩ => ?inRange, fun h => ?offending⟩
  case inRange =>
    refine ⟨_, exec_fa_integer (integerBit_of_in ha) (integerBit_of_in hb) (integerBit_of_in hc) s,
      exec_fa_port _ _ _ s, ?exactSum⟩
    have sum := fullAdd_exact (BitVec.ofInt 1 a) (BitVec.ofInt 1 b) (BitVec.ofInt 1 c)
    have va := value_ofInt_of_in ha
    have vb := value_ofInt_of_in hb
    have vc := value_ofInt_of_in hc
    omega
  case offending => simp only [exec, execFa, faInteger_of_offending h, settle_error]

/-- The packed vector names both outputs, so its value determines the pair (R61, R62). -/
theorem SumCarryPair.eq_of_value_out {p q : SumCarryPair} (h : value p.out = value q.out) : p = q := by
  have out : p.out = q.out := BitVec.eq_of_toNat_eq h
  obtain ⟨pCarry, pSum⟩ := p.out_layout
  obtain ⟨qCarry, qSum⟩ := q.out_layout
  rw [out] at pCarry pSum
  obtain ⟨_, _⟩ := p
  obtain ⟨_, _⟩ := q
  exact congrArg₂ SumCarryPair.mk (pSum.symm.trans qSum) (pCarry.symm.trans qCarry)

/-- FA's outputs are the one pair worth the sum of its inputs (R92). -/
theorem fullAdd_eq_of_value_out {a b c : Bit} {p : SumCarryPair} (h : value p.out = value a + value b + value c) :
    fullAdd a b c = p :=
  SumCarryPair.eq_of_value_out ((value_out_fullAdd a b c).trans h.symm)

/-- FA does not tell `A` and `B` apart (R92). -/
theorem fullAdd_swap_a_b (a b c : Bit) : fullAdd b a c = fullAdd a b c :=
  fullAdd_eq_of_value_out (by rw [value_out_fullAdd, Nat.add_comm (value b)])

/-- FA does not tell `B` and `CI` apart (R92). -/
theorem fullAdd_swap_b_ci (a b c : Bit) : fullAdd a c b = fullAdd a b c :=
  fullAdd_eq_of_value_out (by rw [value_out_fullAdd, Nat.add_right_comm])

/-- FA without a carry-in is HA (R92). -/
theorem fullAdd_zero (a b : Bit) : fullAdd a b 0 = halfAdd a b :=
  fullAdd_eq_of_value_out (value_out_halfAdd a b)

/-- One net on `A` and `B` of FA goes to the carry, and `CI` to the sum (R92). -/
theorem fullAdd_self (a c : Bit) : fullAdd a a c = { sum := c, carry := a } :=
  fullAdd_eq_of_value_out (by rw [SumCarryPair.value_out, Nat.two_mul])

theorem value_eq_one_iff {b : Bit} : value b = 1 ↔ b = 1 := (BitVec.toNat_eq (y := 1)).symm

/-- FA carries when at least two of its inputs are 1: the carry is worth 2 of the sum, and `S` at most 1 (R92). -/
theorem fullAdd_carry_iff (a b c : Bit) : (fullAdd a b c).carry = 1 ↔ 2 ≤ value a + value b + value c := by
  have sum := fullAdd_exact a b c
  have hs : value (fullAdd a b c).sum < 2 := (fullAdd a b c).sum.isLt
  have hc : value (fullAdd a b c).carry < 2 := (fullAdd a b c).carry.isLt
  rw [← value_eq_one_iff]
  omega

/-- The two half adders of FA never both carry: where `H1C` is 1, `H1S` is 0, and `h2` then adds `CI` to nothing (R92). -/
theorem faH1_faH2_not_both_carry (a b c : Bit) : ¬((faH1 a b).carry = 1 ∧ (faH2 a b c).carry = 1) := by
  rintro ⟨h1c, h2c⟩
  have h1s : value (faH1 a b).sum ≠ 1 := fun h => halfAdd_not_both a b ⟨value_eq_one_iff.mp h, h1c⟩
  have sum : 2 * value (faH2 a b c).carry + _ = value (faH1 a b).sum + value c := halfAdd_exact (faH1 a b).sum c
  have hs : value (faH1 a b).sum < 2 := (faH1 a b).sum.isLt
  have hc : value c < 2 := c.isLt
  rw [value_eq_one_iff.mpr h2c] at sum
  omega

/-- The OR of two bits that are not both 1 is their XOR. -/
theorem or_eq_xor_of_not_both {x y : Bit} (h : ¬(x = 1 ∧ y = 1)) : x ||| y = x ^^^ y := by
  revert x y
  decide

/-- Settles O6: the laws of `fullAdd`, which is what FA answers at its ports. -/
theorem fullAdderLaws : Obligations.FullAdderLaws := by
  refine fun a b c s => ⟨fullAdd a b c, exec_fa_port a b c s, rfl, fullAdd_carry_iff a b c, fullAdd_exact a b c,
    value_out_fullAdd a b c, faH1_faH2_not_both_carry a b c,
    or_eq_xor_of_not_both (faH1_faH2_not_both_carry a b c), ?exchangedAB, ?exchangedBCI, ?noCarryIn, ?oneNet,
    rfl, rfl, rfl, rfl⟩
  case exchangedAB => rw [exec_fa_port, fullAdd_swap_a_b]; rfl
  case exchangedBCI => rw [exec_fa_port, fullAdd_swap_b_ci]; rfl
  case noCarryIn =>
    rintro rfl
    rw [fullAdd_zero]
    exact exec_ha_port a b s
  case oneNet =>
    rintro rfl
    rw [fullAdd_self]
    exact ⟨rfl, rfl⟩

end Sys2Proof.Machine
end

section
/-! The ripple-carry adder by itself (R100, R101): what it answers at its ports and on integers, in range or not. -/

namespace Sys2Proof.Machine

/-- Four binary signals are a driven nibble (R121). -/
theorem exists_driveNibble_of_binary {p : NibbleSignals} (h : binaryNibble p = true) : ∃ v, p = driveNibble v := by
  rw [← signalNibble_isSome, Option.isSome_iff_exists] at h
  obtain ⟨v, hv⟩ := h
  exact ⟨v, eq_driveNibble hv⟩

/-- Bit `i` of `S` is the sum bit of stage `i` (R100). -/
theorem nibbleBit_rippleAdd (x y : Nibble) {i : Nat} (hi : i < 4) :
    nibbleBit (rippleAdd x y).s i = (stage x y i).sum := by
  obtain ⟨h3, h2, h1, h0⟩ := nibbleBit_nibbleOf (stage x y 3).sum (stage x y 2).sum (stage x y 1).sum (stage x y 0).sum
  interval_cases i <;> assumption

/-- Settles O7: two driven nibbles go through the four stages, and anything else is the record of the offending ports. -/
theorem rippleCarryAdderOnPorts : Obligations.RippleCarryAdderOnPorts := by
  refine ⟨fun a b s => ⟨rfl, exists_driveNibble_of_binary, fun x y ha hb => ?driven, fun h => ?offending⟩,
    Rca4Outputs.out_layout⟩
  case driven =>
    subst ha hb
    exact ⟨rippleAdd x y, exec_rca4_port x y s, rfl, rfl, fun i hi => ⟨nibbleBit_rippleAdd x y hi, rfl⟩⟩
  case offending => simp only [exec, execRca4, rca4Port_of_offending none h, settle_error]

/-- An integer is taken as the nibble of its value when in range, and not at all otherwise (R66, R122). -/
theorem integerNibble_eq_ite (v : Int) :
    integerNibble v = if 0 ≤ v ∧ v ≤ 15 then some (BitVec.ofInt 4 v) else none := by
  split
  case isTrue h => exact integerNibble_of_in h.1 h.2
  case isFalse h => exact integerNibble_of_out h

/-- The record of a fault of RippleCarryAdder names every argument out of range, with its port (R125). -/
theorem rca4Integer_of_offending {a b : Int} (h : ¬((0 ≤ a ∧ a ≤ 15) ∧ (0 ≤ b ∧ b ≤ 15))) :
    rca4Integer a b = .error
      { unit := .rca4, level := .integer,
        ports := (if 0 ≤ a ∧ a ≤ 15 then [] else [PortName.a]) ++ (if 0 ≤ b ∧ b ≤ 15 then [] else [PortName.b]),
        values := some ((if 0 ≤ a ∧ a ≤ 15 then [] else [a]) ++ (if 0 ≤ b ∧ b ≤ 15 then [] else [b])),
        site := none } := by
  by_cases ha : 0 ≤ a ∧ a ≤ 15 <;> by_cases hb : 0 ≤ b ∧ b ≤ 15
  · exact absurd ⟨ha, hb⟩ h
  all_goals simp [rca4Integer, integerNibble_eq_ite, integerFault, ha, hb]

/-- Settles O8: in range, both levels add the same two nibbles, taken by shift-and-mask; out of range, the record names
what offends. -/
theorem rippleCarryAdderOnIntegers : Obligations.RippleCarryAdderOnIntegers := by
  refine fun a b s => ⟨rfl, fun ⟨⟨a0, a15⟩, b0, b15⟩ => ?inRange, fun h => ?offending⟩
  case inRange =>
    have ha := integerNibble_of_in a0 a15
    have hb := integerNibble_of_in b0 b15
    exact ⟨_, fun i hi => ⟨nibbleBit_of_integerNibble ha hi, nibbleBit_of_integerNibble hb hi⟩,
      exec_rca4_port _ _ s, exec_rca4_integer ha hb s⟩
  case offending => simp only [exec, execRca4, rca4Integer_of_offending h, settle_error]

end Sys2Proof.Machine
end

section
/-! The laws of the ripple-carry adder (R102 to R106). The outputs as a whole follow from the exact sum, which determines
them; the carry nets between the stages from the same sum taken of the low parts of the operands. -/

namespace Sys2Proof.Machine

/-- `bits[0]` weighs `2^3`, so `bits` is worth what `S` is (R102). -/
theorem bitsValue_addition (o : Rca4Outputs) : o.addition.bitsValue = value o.s := (value_nibble o.s).symm

/-- The exact sum at the integer level (R102). -/
theorem addition_exact (x y : Nibble) :
    (rippleAdd x y).addition.bitsValue + 16 * value (rippleAdd x y).addition.carryOut = value x + value y := by
  rw [bitsValue_addition]
  exact rippleAdd_exact x y

/-- Settles O9: `S` and `CO` are the remainder and the quotient of the exact sum by 16. -/
theorem rippleCarryExactSum : Obligations.RippleCarryExactSum := by
  refine ⟨fun x y s => ⟨rippleAdd x y, exec_rca4_port x y s, rippleAdd_exact x y, ?quotient⟩,
    fun a b s a0 a15 b0 b15 =>
      ⟨_, exec_rca4_integer (integerNibble_of_in a0 a15) (integerNibble_of_in b0 b15) s, ?integers⟩⟩
  case quotient =>
    have sum := rippleAdd_exact x y
    have hs : value (rippleAdd x y).s < 16 := (rippleAdd x y).s.isLt
    have hco : value (rippleAdd x y).co < 2 := (rippleAdd x y).co.isLt
    rw [← value_eq_one_iff]
    omega
  case integers =>
    have sum := addition_exact (BitVec.ofInt 4 a) (BitVec.ofInt 4 b)
    have va := value_ofInt_nibble a0 a15
    have vb := value_ofInt_nibble b0 b15
    rw [AdditionResult.bitsValue] at sum
    omega

/-- The carry chain does not tell the operands apart (R104). -/
theorem carryNet_comm (x y : Nibble) (i : Nat) : carryNet x y i = carryNet y x i := by
  induction i with
  | zero => rfl
  | succ i ih => simp only [carryNet, ih, fullAdd_swap_a_b (nibbleBit x i)]

theorem stage_comm (x y : Nibble) (i : Nat) : stage x y i = stage y x i := by
  rw [stage, carryNet_comm, fullAdd_swap_a_b, stage]

theorem rippleAdd_comm (x y : Nibble) : rippleAdd x y = rippleAdd y x := by
  simp only [rippleAdd, stage_comm x y, carryNet_comm x y]

/-- Settles O10: no half adder, no carry net and so no stage tells its operands apart. -/
theorem rippleCarryCommutes : Obligations.RippleCarryCommutes := by
  refine ⟨fun x y s => ?ports, fun a b s a0 a15 b0 b15 => ?integers,
    fun x y i => ⟨carryNet_comm x y i, halfAdd_comm _ _, ?h2⟩⟩
  case ports => rw [exec_rca4_port, exec_rca4_port, rippleAdd_comm]
  case integers =>
    have ha := integerNibble_of_in a0 a15
    have hb := integerNibble_of_in b0 b15
    rw [exec_rca4_integer ha hb, exec_rca4_integer hb ha, rippleAdd_comm]
  case h2 => simp only [faH2, faH1, halfAdd_comm (nibbleBit x i), carryNet_comm x]

/-- The packed vector names both outputs, so its value determines them (R63). -/
theorem Rca4Outputs.eq_of_value_out {p q : Rca4Outputs} (h : value p.out = value q.out) : p = q := by
  have out : p.out = q.out := BitVec.eq_of_toNat_eq h
  obtain ⟨pCo, pS⟩ := p.out_layout
  obtain ⟨qCo, qS⟩ := q.out_layout
  rw [out] at pCo pS
  obtain ⟨_, _⟩ := p
  obtain ⟨_, _⟩ := q
  exact congrArg₂ Rca4Outputs.mk (pS.symm.trans qS) (pCo.symm.trans qCo)

/-- RCA4's outputs are the one pair worth the sum of its operands (R102). -/
theorem rippleAdd_eq_of_value_out {x y : Nibble} {o : Rca4Outputs} (h : value o.out = value x + value y) :
    rippleAdd x y = o :=
  Rca4Outputs.eq_of_value_out ((value_out_rippleAdd x y).trans h.symm)

/-- RCA4 with `B = 0` gives `A` and no carry (R105). -/
theorem rippleAdd_zero (x : Nibble) : rippleAdd x 0 = { s := x, co := 0 } :=
  rippleAdd_eq_of_value_out (by simp [Rca4Outputs.value_out])

theorem nibbleBit_zero (i : Nat) : nibbleBit 0 i = 0 := by simp [nibbleBit]

/-- No carry arises where `B` is 0 (R105). -/
theorem carryNet_zero (x : Nibble) (i : Nat) : carryNet x 0 i = 0 := by
  induction i with
  | zero => rfl
  | succ i ih => rw [carryNet, ih, nibbleBit_zero, fullAdd_zero]; exact BitVec.and_zero

/-- Shift-and-mask is a quotient's last bit (R66). -/
theorem shiftAndMask_eq_ofNat_div (v i : Nat) : shiftAndMask v i = BitVec.ofNat 1 (v / 2 ^ i) := by
  refine BitVec.eq_of_toNat_eq ?_
  simp [shiftAndMask, Nat.shiftRight_eq_div_pow, Nat.and_one_is_mod]

/-- The bits of an integer in range (R66). -/
theorem nibbleBit_ofInt {v : Int} (h0 : 0 ≤ v) (h15 : v ≤ 15) {i : Nat} (hi : i < 4) :
    nibbleBit (BitVec.ofInt 4 v) i = BitVec.ofNat 1 (v.toNat / 2 ^ i) :=
  (nibbleBit_of_integerNibble (integerNibble_of_in h0 h15) hi).trans (shiftAndMask_eq_ofNat_div _ _)

/-- `bits` is most significant first (R43, R67). -/
theorem addition_eq (o : Rca4Outputs) : o.addition =
    { bits := #v[nibbleBit o.s 3, nibbleBit o.s 2, nibbleBit o.s 1, nibbleBit o.s 0], carryOut := o.co } := rfl

/-- Settles O11: the exact sum gives `A` back, and no stage makes a carry. -/
theorem rippleCarryIdentity : Obligations.RippleCarryIdentity := by
  refine ⟨fun x s => ⟨?ports, carryNet_zero x⟩, fun a s a0 a15 => ?integers⟩
  case ports => rw [exec_rca4_port, rippleAdd_zero]; rfl
  case integers =>
    rw [exec_rca4_integer (integerNibble_of_in a0 a15) (y := 0) rfl, rippleAdd_zero, addition_eq]
    simp [nibbleBit_ofInt a0 a15, State.read]

/-! The low parts of operands and sum. -/

theorem value_nibbleBit (v : Nibble) (i : Nat) : value (nibbleBit v i) = value v / 2 ^ i % 2 := by
  rw [value, nibbleBit, BitVec.extractLsb'_toNat, Nat.shiftRight_eq_div_pow, pow_one]

/-- Bit `i` is the top bit of the low `i + 1` bits. -/
theorem value_mod_succ (v : Nibble) (i : Nat) :
    value v % 2 ^ (i + 1) = value v % 2 ^ i + 2 ^ i * value (nibbleBit v i) := by
  rw [value_nibbleBit, Nat.mod_pow_succ]

/-- Bit `i` is one of the low `i + 1` bits. -/
theorem nibbleBit_eq_of_mod_eq {v w : Nibble} {i : Nat} (h : value v % 2 ^ (i + 1) = value w % 2 ^ (i + 1)) :
    nibbleBit v i = nibbleBit w i := by
  have low (u : Nibble) : value (nibbleBit u i) = value u % 2 ^ (i + 1) / 2 ^ i := by
    rw [value_nibbleBit, pow_succ, Nat.mod_mul_right_div_self]
  exact BitVec.eq_of_toNat_eq ((low v).trans (h ▸ (low w).symm))

/-- The first `k` stages add the low `k` bits of the operands exactly (R106). -/
theorem lowSum_exact (x y : Nibble) {k : Nat} (hk : k ≤ 4) :
    value (rippleAdd x y).s % 2 ^ k + 2 ^ k * value (carryNet x y k) = value x % 2 ^ k + value y % 2 ^ k := by
  induction k with
  | zero => simp [Nat.mod_one, carryNet, Config.stageZeroCarryIn]
  | succ k ih =>
    have low := ih (by omega)
    have bit := stage_exact x y k
    rw [value_mod_succ, value_mod_succ x, value_mod_succ y, nibbleBit_rippleAdd x y hk]
    linear_combination low + 2 ^ k * bit

/-- A carry net is the quotient, and the low part of `S` the remainder, of the sum of the operands' low parts (R106). -/
theorem lowSum_div_mod (x y : Nibble) {k : Nat} (hk : k ≤ 4) :
    (value x % 2 ^ k + value y % 2 ^ k) / 2 ^ k = value (carryNet x y k) ∧
      (value x % 2 ^ k + value y % 2 ^ k) % 2 ^ k = value (rippleAdd x y).s % 2 ^ k :=
  (Nat.div_mod_unique (by positivity)).mpr ⟨lowSum_exact x y hk, Nat.mod_lt _ (by positivity)⟩

/-- A stage carries exactly when the low parts of the operands overflow (R106). -/
theorem carryNet_eq_one_iff (x y : Nibble) {k : Nat} (hk : k ≤ 4) :
    carryNet x y k = 1 ↔ 2 ^ k ≤ value x % 2 ^ k + value y % 2 ^ k := by
  have hc : value (carryNet x y k) < 2 := (carryNet x y k).isLt
  rw [← value_eq_one_iff, ← Nat.one_le_div_iff (by positivity), (lowSum_div_mod x y hk).1]
  omega

/-- `S[i]` and `C(i+1)` depend only on bits `i..0` of the operands (R106). -/
theorem lowBits_determine {x y x' y' : Nibble} {i : Nat} (hi : i < 4)
    (hx : value x' % 2 ^ (i + 1) = value x % 2 ^ (i + 1)) (hy : value y' % 2 ^ (i + 1) = value y % 2 ^ (i + 1)) :
    nibbleBit (rippleAdd x' y').s i = nibbleBit (rippleAdd x y).s i ∧ carryNet x' y' (i + 1) = carryNet x y (i + 1) := by
  obtain ⟨carry, sum⟩ := lowSum_div_mod x y hi
  obtain ⟨carry', sum'⟩ := lowSum_div_mod x' y' hi
  rw [hx, hy] at carry' sum'
  exact ⟨nibbleBit_eq_of_mod_eq (sum'.symm.trans sum), BitVec.eq_of_toNat_eq (carry'.symm.trans carry)⟩

/-- Stage 0 is a half adder, its carry-in being the constant 0 (R106). -/
theorem stage_zero (x y : Nibble) : stage x y 0 = halfAdd (nibbleBit x 0) (nibbleBit y 0) := fullAdd_zero _ _

theorem carryNet_one (x y : Nibble) : carryNet x y 1 = (halfAdd (nibbleBit x 0) (nibbleBit y 0)).carry :=
  congrArg SumCarryPair.carry (stage_zero x y)

/-- One net on `A` and `B` is shifted up by one place (R106). -/
theorem rippleAdd_self (x : Nibble) : rippleAdd x x = { s := x.extractLsb' 0 3 ++ (0 : Bit), co := nibbleBit x 3 } := by
  refine rippleAdd_eq_of_value_out ?_
  have low : value (x.extractLsb' 0 3) = value x % 8 := by simp [value]
  have hx : value x < 16 := x.isLt
  rw [Rca4Outputs.value_out, value_append, value_nibbleBit, low, show value (0 : Bit) = 0 from rfl]
  omega

/-- FA with a carry-in carries when either of its inputs is 1 (R92). -/
theorem fullAdd_one_carry (a b : Bit) : (fullAdd a b 1).carry = a ||| b := by
  revert a b
  decide

theorem halfAdd_carry_eq_one_iff (a b : Bit) : (halfAdd a b).carry = 1 ↔ a = 1 ∧ b = 1 := by
  revert a b
  decide

theorem carryNet_succ_of_carry {x y : Nibble} {i : Nat} (h : carryNet x y i = 1) :
    carryNet x y (i + 1) = nibbleBit x i ||| nibbleBit y i := by
  rw [carryNet, h, fullAdd_one_carry]

/-- The carry ripples through all four stages exactly when stage 0 makes one and each later stage hands it on (R106). -/
theorem fullRipple_iff (x y : Nibble) :
    (carryNet x y 1 = 1 ∧ carryNet x y 2 = 1 ∧ carryNet x y 3 = 1 ∧ carryNet x y 4 = 1) ↔
      (nibbleBit x 0 = 1 ∧ nibbleBit y 0 = 1 ∧ ∀ i, 1 ≤ i → i ≤ 3 → nibbleBit x i ||| nibbleBit y i = 1) := by
  have made : carryNet x y 1 = 1 ↔ nibbleBit x 0 = 1 ∧ nibbleBit y 0 = 1 := by
    rw [carryNet_one, halfAdd_carry_eq_one_iff]
  constructor
  · rintro ⟨c1, c2, c3, c4⟩
    obtain ⟨hx, hy⟩ := made.mp c1
    refine ⟨hx, hy, fun i h1 h3 => ?_⟩
    interval_cases i
    · exact (carryNet_succ_of_carry c1).symm.trans c2
    · exact (carryNet_succ_of_carry c2).symm.trans c3
    · exact (carryNet_succ_of_carry c3).symm.trans c4
  · rintro ⟨hx, hy, handedOn⟩
    have c1 := made.mpr ⟨hx, hy⟩
    have c2 := (carryNet_succ_of_carry c1).trans (handedOn 1 (by decide) (by decide))
    have c3 := (carryNet_succ_of_carry c2).trans (handedOn 2 (by decide) (by decide))
    have c4 := (carryNet_succ_of_carry c3).trans (handedOn 3 (by decide) (by decide))
    exact ⟨c1, c2, c3, c4⟩

/-- The largest results (R106): 30, and 15 without a carry. -/
theorem value_out_rippleAdd_le (x y : Nibble) :
    value (rippleAdd x y).out ≤ 30 ∧ ((rippleAdd x y).co = 0 → value (rippleAdd x y).out ≤ 15) := by
  constructor
  · have hx : value x < 16 := x.isLt
    have hy : value y < 16 := y.isLt
    rw [value_out_rippleAdd]
    omega
  · intro hco
    have hs : value (rippleAdd x y).s < 16 := (rippleAdd x y).s.isLt
    rw [Rca4Outputs.value_out, hco, show value (0 : Bit) = 0 from rfl]
    omega

/-- Settles O12: the laws of the stages, and the largest results at `15 + 15` and `15 + 0`. -/
theorem rippleCarryStageLaws : Obligations.RippleCarryStageLaws := by
  refine ⟨fun x y i hi => ⟨carryNet_eq_one_iff x y hi, lowSum_exact x y hi, fun x' y' => lowBits_determine hi⟩,
    fun x y => ⟨?sum, carryNet_one x y⟩, rippleAdd_self, fullRipple_iff, (rippleAdd_self 15).trans (by decide),
    value_out_rippleAdd_le, 15, 0, ?largest⟩
  case sum => rw [nibbleBit_rippleAdd x y (by decide), stage_zero]
  case largest => rw [rippleAdd_zero]; decide

end Sys2Proof.Machine
end

section
/-! How a netlist's evaluation ends: the fault of its first faulting statement (R125, R127), or its outputs; never refused
once it passes the checks (R120), and with no fault on inputs of 0 and 1 (R124, R28). -/

namespace Sys2Proof.Machine

/-- The fault of a statement has its name as the site and its unit (R123, R125). -/
theorem evalStmt_fault_record {nets : List (NetName × Net)} {st : Stmt} {f : Fault} (h : evalStmt nets st = .fault f) :
    f.record.site = some st.name ∧ f.record.unit = st.unit := by
  rcases evalStmt_cases nets st with e | ⟨vs, -, ⟨o, -, e⟩ | ⟨r, hu, e⟩⟩ <;> rw [e] at h <;> cases h
  rcases unitAt_cases hu with ⟨o, ho, -⟩ | ⟨r', hr, fits, -⟩
  · cases ho
  · cases hr
    exact ⟨fits.site, fits.unit⟩

/-- Statements that end in a fault were evaluated up to one that faults. -/
theorem evalStmts_fault {nets : List (NetName × Net)} {stmts : List Stmt} {f : Fault}
    (h : evalStmts nets stmts = .fault f) : ∃ pre st post bound,
      stmts = pre ++ st :: post ∧ evalStmts nets pre = .next bound ∧ evalStmt bound st = .fault f := by
  induction stmts generalizing nets with
  | nil => cases h
  | cons st rest ih =>
    cases he : evalStmt nets st with
    | refused r => simp [evalStmts, he] at h
    | fault g =>
      obtain rfl : g = f := by simpa [evalStmts, he] using h
      exact ⟨[], st, rest, nets, rfl, rfl, he⟩
    | next o =>
      have hrest : evalStmts (nets ++ [(st.name, .inst o)]) rest = .fault f := by simpa [evalStmts, he] using h
      obtain ⟨pre, st', post, bound, rfl, hpre, hst⟩ := ih hrest
      exact ⟨st :: pre, st', post, bound, rfl, evalStmts_cons_next_iff.mpr ⟨o, he, hpre⟩, hst⟩

/-- Settles O46: the statements before the one that faults were evaluated, and its record is its own. -/
theorem firstFaultingStatementIsReported : Obligations.FirstFaultingStatementIsReported := by
  intro nets stmts f h
  obtain ⟨pre, st, post, bound, hstmts, hpre, hst⟩ := evalStmts_fault h
  exact ⟨pre, st, post, bound, hstmts, hpre, hst, evalStmt_fault_record hst⟩

/-- Settles O42: a statement left passes the checks, so it is bound or faults; with none left, each output's expression passes
them, so it has a value. -/
theorem netlistInProgressIsNeverRefused : Obligations.NetlistInProgressIsNeverRefused := by
  intro s hs hrun
  have hp := hs.passes
  cases ht : s.todo with
  | cons st rest =>
    rw [ht] at hp
    obtain ⟨o, -, -, hstep⟩ | ⟨f, -, hstep⟩ := step_statement ht hp
    · exact .inl ⟨_, hstep⟩
    · exact .inr ⟨f, hstep⟩
  | nil =>
    rw [ht] at hp
    have houts : s.outs ≠ [] := hrun.resolve_left (not_not.mpr ht)
    obtain ⟨vs, hvs, -⟩ := evalOuts_of_checked (passes_nil hp)
    exact .inl ⟨_, by rw [step_finish ht houts, evalRest_ok hvs, ending]⟩

/-- What is left of a netlist and passes the checks ends in a value for each output, or in a fault. -/
theorem evalRest_of_passes {nets : List (NetName × Net)} {stmts : List Stmt} {outs : List OutDecl}
    (hp : ∀ k, passes (netTypes nets) stmts outs k = true) :
    (∃ vs, evalRest nets stmts outs = .next vs ∧ vs.map Prod.fst = outs.map OutDecl.name) ∨
    (∃ f, evalRest nets stmts outs = .fault f) := by
  induction stmts generalizing nets with
  | nil =>
    obtain ⟨vs, hvs, hnames⟩ := evalOuts_of_checked (passes_nil hp)
    exact .inl ⟨vs, evalRest_ok hvs, hnames⟩
  | cons st rest ih =>
    obtain ⟨hst, hnew, hrest⟩ := passes_bind hp
    cases he : evalStmt nets st with
    | next o =>
      rw [evalRest_next he]
      exact ih (hrest o (evalStmt_next_unit he))
    | fault f => exact .inr ⟨f, evalRest_fault he⟩
    | refused r => exact absurd he (evalStmt_ne_refused hst hnew r)

/-- Settles O44: the netlist starts, and all that is left of it then passes the checks. -/
theorem wellFormedNetlistEnds : Obligations.WellFormedNetlistEnds := by
  intro n inputs hg hwf hin
  have hstart := netlistRefusal_eq_none_iff.mpr ⟨hg, hwf, hin⟩
  rw [evalNetlist_of_start hstart]
  exact evalRest_of_passes (passes_inputNets hstart)

/-! Where every input bound carries 0 and 1 only (R124): a statement binds outputs, which always do (R28), so this stays so. -/

theorem netsBinary_inputNets {n : Netlist} {inputs : List (List Signal)}
    (h : ∀ v ∈ inputs, ∀ x ∈ v, binarySignal x = true) : netsBinary (inputNets n inputs) := by
  intro m v hm
  obtain ⟨⟨d, w⟩, hp, heq⟩ := List.mem_map.mp hm
  cases heq
  exact h w (List.of_mem_zip hp).2

/-- What a statement binds is no input. -/
theorem netsBinary_bind {nets : List (NetName × Net)} (h : netsBinary nets) (site : NetName) (o : Outputs) :
    netsBinary (nets ++ [(site, .inst o)]) :=
  fun n v hm => h n v (by simpa using hm)

theorem evalStmts_netsBinary {a b : List (NetName × Net)} {stmts : List Stmt} (ha : netsBinary a)
    (h : evalStmts a stmts = .next b) : netsBinary b := by
  induction stmts generalizing a with
  | nil =>
    cases h
    exact ha
  | cons st rest ih =>
    obtain ⟨o, -, hrest⟩ := evalStmts_cons_next_iff.mp h
    exact ih (netsBinary_bind ha st.name o) hrest

/-- A statement does not fault on such names: the values of its arguments are 0 and 1 only. -/
theorem evalStmt_ne_fault_of_binary {nets : List (NetName × Net)} (hb : netsBinary nets) (st : Stmt) (f : Fault) :
    evalStmt nets st ≠ .fault f := by
  rcases evalStmt_cases nets st with e | ⟨vs, hvs, ⟨o, -, e⟩ | ⟨r, hu, e⟩⟩
  · simp [e]
  · simp [e]
  · have hbits : ∀ v ∈ vs, ∀ x ∈ v, binarySignal x = true := by
      intro v hv
      obtain ⟨a, -, ha⟩ := mem_of_mapM hvs hv
      exact evalExpr_binary hb a v ha
    rcases unitAt_cases hu with ⟨o, ho, -⟩ | ⟨r', -, -, hnot⟩
    · cases ho
    · exact absurd hbits hnot

theorem evalStmts_ne_fault_of_binary {nets : List (NetName × Net)} (hb : netsBinary nets) (stmts : List Stmt)
    (f : Fault) : evalStmts nets stmts ≠ .fault f := by
  intro h
  obtain ⟨pre, st, -, bound, -, hpre, hst⟩ := evalStmts_fault h
  exact evalStmt_ne_fault_of_binary (evalStmts_netsBinary hb hpre) st f hst

theorem evalOuts_binary {nets : List (NetName × Net)} (hb : netsBinary nets) {outs : List OutDecl}
    {vs : List (NetName × List Signal)} (h : evalOuts nets outs = .ok vs) :
    ∀ p ∈ vs, ∀ x ∈ p.2, binarySignal x = true := by
  induction evalOuts_ok_iff.mp h with
  | nil => simp
  | cons hp hrest ih =>
    exact List.forall_mem_cons.mpr ⟨evalExpr_binary hb _ _ hp.2, ih (evalOuts_ok_iff.mpr hrest)⟩

/-- A netlist's evaluation faults only where one of its statements does. -/
theorem evalNetlist_fault {n : Netlist} {inputs : List (List Signal)} {f : Fault} (h : evalNetlist n inputs = .fault f) :
    evalStmts (inputNets n inputs) n.stmts = .fault f := by
  cases hs : netlistRefusal n inputs with
  | some r => simp [evalNetlist_of_refused hs] at h
  | none =>
    rw [evalNetlist_of_start hs, evalRest] at h
    cases he : evalStmts (inputNets n inputs) n.stmts with
    | fault g => simpa [he] using h
    | refused r => simp [he] at h
    | next nets => cases ho : evalOuts nets n.outs <;> simp [he, ho] at h

/-- Settles O45: the netlist ends in its outputs or a fault (O44); no statement faults on 0 and 1, and the outputs are
expressions on 0 and 1. -/
theorem binaryInputsNeverFault : Obligations.BinaryInputsNeverFault := by
  intro n inputs hg hwf hin hbits
  have hb : netsBinary (inputNets n inputs) := netsBinary_inputNets hbits
  obtain ⟨vs, hvs, -⟩ | ⟨f, hf⟩ := wellFormedNetlistEnds n inputs hg hwf hin
  · obtain ⟨-, nets, hrun, houts⟩ := evalNetlist_next_iff.mp hvs
    exact ⟨vs, hvs, evalOuts_binary (evalStmts_netsBinary hb hrun) houts⟩
  · exact absurd (evalNetlist_fault hf) (evalStmts_ne_fault_of_binary hb _ f)

end Sys2Proof.Machine
end

section
/-! When an evaluation outside a netlist faults: exactly when an operand is out of range (R120 to R122, R135). -/

namespace Sys2Proof.Machine

/-- An operation that is no statement faults exactly when its operands are not in range. -/
theorem exec_faults_iff {i : Instr} (h : siteOf i = none) (s : State) :
    (∃ f, exec i s = .fault f) ↔ inRange i = false := by
  obtain ⟨hin, r, hr⟩ | ⟨hout, r, hr, -⟩ := exec_direct h
  · simp [hr, hin]
  · simp [hr, hout]

/-- Signals that are not all 0 or 1: one of them carries no bit. -/
theorem all_binarySignal_eq_false_iff {l : List Signal} :
    l.all binarySignal = false ↔ ∃ x ∈ l, ∀ v : Bit, x ≠ .bit v := by
  simp only [List.all_eq_false, binarySignal_iff, not_exists]

/-- Settles O16: "not in range", spelled out for each unit and level. -/
theorem preconditionViolationCauses : Obligations.PreconditionViolationCauses := by
  refine fun s => ⟨fun a b => ?ha, fun a b c => ?fa, fun a b => ?rca4, fun a b => ?haPort, fun a b c => ?faPort,
    fun a b => ?rca4Port⟩
  all_goals rw [exec_faults_iff rfl s, inRange]
  case ha | fa | rca4 =>
    rw [decide_eq_false_iff_not]
    omega
  case haPort | faPort | rca4Port =>
    rw [← all_binarySignal_eq_false_iff]
    simp only [List.all_cons, List.all_nil, Bool.and_true, Bool.and_assoc, binaryNibble]

/-- Settles O18: an operation with such an argument is not in range. -/
theorem outOfRangeNeverAnswers : Obligations.OutOfRangeNeverAnswers :=
  fun s => ⟨fun _ _ h => (exec_faults_iff rfl s).mpr (decide_eq_false h),
    fun _ _ _ h => (exec_faults_iff rfl s).mpr (decide_eq_false h),
    fun _ _ h => (exec_faults_iff rfl s).mpr (decide_eq_false h)⟩

/-- Settles O19: the two ways such an evaluation ends, told apart by the range of its operands. -/
theorem twoOutcomesOfAnEvaluation : Obligations.TwoOutcomesOfAnEvaluation := by
  intro i s h
  obtain ⟨hin, r, hr⟩ | ⟨hout, r, hr, -⟩ := exec_direct h
  · exact ⟨fun _ => ⟨r, hr s⟩, by simp [hin]⟩
  · exact ⟨by simp [hout], fun _ => ⟨r, hr s⟩⟩

end Sys2Proof.Machine
end

section
/-! The record of a fault, whole (R123, R125): one record for all operations, made of the operation's unit, level, site and
operands. -/

namespace Sys2Proof.Machine

/-- The record R123 and R125 describe for an evaluation of a unit on its operands: the operands out of range, and at the
integer level their arguments. -/
def recordOf (u : UnitName) (l : Level) (site : Option NetName) (operands : List (PortName × Operand)) : FaultRecord where
  unit := u
  level := l
  ports := (operands.filter fun p => !p.2.legal).map Prod.fst
  values := match l with
    | .port => none
    | .integer => some ((operands.filter fun p => !p.2.legal).filterMap fun p => p.2.argument)
  site := site

/-- The record made at the ports. -/
theorem portFault_eq_recordOf (u : UnitName) (site : Option NetName) (operands : List (PortName × Operand)) :
    portFault u site (operands.map fun p => (p.1, !p.2.legal)) = recordOf u .port site operands := by
  simp [portFault, recordOf, List.filter_map, Function.comp_def]

/-- The record made of integers, each taken as an operand. -/
theorem integerFault_eq_recordOf {take : Int → Operand} (ht : ∀ v, (take v).argument = some v) (u : UnitName)
    (args : List (PortName × Int)) : integerFault u (args.map fun p => (p.1, p.2, !(take p.2).legal)) =
      recordOf u .integer none (args.map fun p => (p.1, take p.2)) := by
  simp [integerFault, recordOf, List.filter_map, Function.comp_def, ht, List.filterMap_map]

/-! The record each unit raises at its ports and on integers. -/

theorem haPort_error {site : Option NetName} {a b : Signal} {r : FaultRecord} (h : haPort site a b = .error r) :
    r = recordOf .ha .port site [(.a, .signals [a]), (.b, .signals [b])] := by
  unfold haPort at h
  split at h <;> cases h
  simp [← portFault_eq_recordOf, Operand.legal_signal]

theorem faPort_error {site : Option NetName} {a b c : Signal} {r : FaultRecord} (h : faPort site a b c = .error r) :
    r = recordOf .fa .port site [(.a, .signals [a]), (.b, .signals [b]), (.ci, .signals [c])] := by
  unfold faPort at h
  split at h <;> cases h
  simp [← portFault_eq_recordOf, Operand.legal_signal]

theorem rca4Port_error {site : Option NetName} {a b : NibbleSignals} {r : FaultRecord}
    (h : rca4Port site a b = .error r) : r = recordOf .rca4 .port site [(.a, .port4 a), (.b, .port4 b)] := by
  unfold rca4Port at h
  split at h <;> cases h
  simp [← portFault_eq_recordOf, Operand.legal_port4]

theorem haInteger_error {a b : Int} {r : FaultRecord} (h : haInteger a b = .error r) :
    r = recordOf .ha .integer none [(.a, .bit a), (.b, .bit b)] := by
  unfold haInteger at h
  split at h <;> cases h
  simpa [Operand.legal_bit] using integerFault_eq_recordOf (take := .bit) (fun _ => rfl) .ha [(.a, a), (.b, b)]

theorem faInteger_error {a b c : Int} {r : FaultRecord} (h : faInteger a b c = .error r) :
    r = recordOf .fa .integer none [(.a, .bit a), (.b, .bit b), (.ci, .bit c)] := by
  unfold faInteger at h
  split at h <;> cases h
  simpa [Operand.legal_bit] using integerFault_eq_recordOf (take := .bit) (fun _ => rfl) .fa [(.a, a), (.b, b), (.ci, c)]

theorem rca4Integer_error {a b : Int} {r : FaultRecord} (h : rca4Integer a b = .error r) :
    r = recordOf .rca4 .integer none [(.a, .nibble a), (.b, .nibble b)] := by
  unfold rca4Integer at h
  split at h <;> cases h
  simpa [Operand.legal_nibble] using integerFault_eq_recordOf (take := .nibble) (fun _ => rfl) .rca4 [(.a, a), (.b, b)]

/-! The fault of each operation, whichever way its operands are given. -/

/-- The fault of an operation on the names bound in a state. -/
def faultOf (nets : List (NetName × Net)) (i : Instr) : Fault :=
  .preconditionViolation (recordOf i.unit (levelOf i) (siteOf i) (operandsOf nets i))

theorem execHa_fault {o : HaOperands} {s : State} {f : Fault} (h : execHa o s = .fault f) :
    f = faultOf s.nets (.ha o) := by
  cases o with
  | port a b =>
    obtain ⟨r, hr, rfl⟩ := settle_fault h
    rw [haPort_error hr]
    rfl
  | integer a b =>
    obtain ⟨r, hr, rfl⟩ := settle_fault h
    rw [haInteger_error hr]
    rfl
  | wired site a b =>
    simp only [execHa] at h
    split at h
    next x y hx hy =>
      obtain ⟨-, r, hr, rfl⟩ := instantiate_fault h
      rw [haPort_error hr, ← Operand.wire_of_resolveBit hx, ← Operand.wire_of_resolveBit hy]
      rfl
    next => cases h

theorem execFa_fault {o : FaOperands} {s : State} {f : Fault} (h : execFa o s = .fault f) :
    f = faultOf s.nets (.fa o) := by
  cases o with
  | port a b c =>
    obtain ⟨r, hr, rfl⟩ := settle_fault h
    rw [faPort_error hr]
    rfl
  | integer a b c =>
    obtain ⟨r, hr, rfl⟩ := settle_fault h
    rw [faInteger_error hr]
    rfl
  | wired site a b c =>
    simp only [execFa] at h
    split at h
    next x y z hx hy hz =>
      obtain ⟨-, r, hr, rfl⟩ := instantiate_fault h
      rw [faPort_error hr, ← Operand.wire_of_resolveBit hx, ← Operand.wire_of_resolveBit hy,
        ← Operand.wire_of_resolveBit hz]
      rfl
    next => cases h

theorem execRca4_fault {o : Rca4Operands} {s : State} {f : Fault} (h : execRca4 o s = .fault f) :
    f = faultOf s.nets (.rca4 o) := by
  cases o with
  | port a b =>
    obtain ⟨r, hr, rfl⟩ := settle_fault h
    rw [rca4Port_error hr]
    rfl
  | integer a b =>
    obtain ⟨r, hr, rfl⟩ := settle_fault h
    rw [rca4Integer_error hr]
    rfl
  | wired site a b =>
    simp only [execRca4] at h
    split at h
    next x y hx hy =>
      obtain ⟨-, r, hr, rfl⟩ := instantiate_fault h
      rw [rca4Port_error hr, ← Operand.wire_of_resolveNibble hx, ← Operand.wire_of_resolveNibble hy]
      rfl
    next => cases h

theorem exec_fault {i : Instr} {s : State} {f : Fault} (h : exec i s = .fault f) : f = faultOf s.nets i := by
  cases i with
  | ha o => exact execHa_fault h
  | fa o => exact execFa_fault h
  | rca4 o => exact execRca4_fault h

/-- Every fault's record is one that R123 describes. -/
theorem exec_fault_fits {i : Instr} {s : State} {f : Fault} (h : exec i s = .fault f) :
    RecordFits i.unit (levelOf i) (siteOf i) f.record := by
  cases hsite : siteOf i with
  | none =>
    obtain ⟨-, r, hr⟩ | ⟨-, r, hr, fits⟩ := exec_direct hsite <;> rw [hr] at h <;> cases h
    exact fits
  | some site =>
    obtain hr | ⟨e, he, hout⟩ := exec_statement hsite s
    · rw [hr] at h
      cases h
    · rw [he] at h
      obtain ⟨-, r, rfl, rfl⟩ := instantiate_fault h
      obtain ⟨o, ho, -⟩ | ⟨r', hr, fits⟩ := hout
      · cases ho
      · cases hr
        exact fits

/-- Settles O17: the fault is `faultOf`, which lists the offending operands, and its record is one of R123. -/
theorem faultRecordIsComplete : Obligations.FaultRecordIsComplete := by
  intro i s f h
  have fits := exec_fault_fits h
  obtain rfl := exec_fault h
  refine ⟨rfl, fits.unit, fits.level, fits.nonempty, fits.inOrder, rfl, fun hl => ⟨?_, fits.integerValues hl⟩,
    fits.portValues, fits.site⟩
  simp only [faultOf, Fault.record, recordOf, hl, offending]

end Sys2Proof.Machine
end

section
/-! The host's next request is answered by itself (R126, R49, R134): the requests behind it and the state it finds are not
asked. -/

namespace Sys2Proof.Machine

/-- What is decoded to no statement, or not at all, is answered alike in all states. -/
theorem observed_runOp {raw : RawOp} (h : ∀ i, decode raw = .ok i → siteOf i = none) (s t : State) :
    observed (runOp raw s) = observed (runOp raw t) := by
  cases hd : decode raw with
  | error e => simp only [runOp, hd, observed]
  | ok i =>
    rw [runOp_of_decode hd, runOp_of_decode hd]
    exact outputsDependOnInputsOnly i s t (h i hd)

/-- A netlist is refused, or starts with the same statements, outputs and bound names, alike in all states. -/
theorem startNetlist_alike (n : Netlist) (inputs : List (List Signal)) (s t : State) :
    (∃ q, startNetlist n inputs s = .refused q ∧ startNetlist n inputs t = .refused q) ∨
    (∃ s' t', startNetlist n inputs s = .next s' ∧ startNetlist n inputs t = .next t' ∧
      s'.todo = t'.todo ∧ s'.outs = t'.outs ∧ s'.nets = t'.nets) := by
  simp only [startNetlist]
  cases netlistRefusal n inputs with
  | some q => exact .inl ⟨q, rfl, rfl⟩
  | none => exact .inr ⟨_, _, rfl, rfl, rfl, rfl, rfl⟩

/-- Settles O51: the step is the request's own in both states, request by request. -/
theorem nextRequestStandsAlone : Obligations.NextRequestStandsAlone := by
  intro s t r rest more hs ht hrs hrt
  cases r with
  | drive u bits =>
    refine ⟨fun _ => ?_, by simp⟩
    rw [step_drive hs hrs, step_drive ht hrt]
    exact observed_runOp (fun _ => siteOf_of_decode_driven) _ _
  | call u args =>
    refine ⟨fun _ => ?_, by simp⟩
    rw [step_call hs hrs, step_call ht hrt]
    exact observed_runOp (fun _ => siteOf_of_decode_call) _ _
  | netlist n inputs =>
    refine ⟨fun hne => absurd rfl (hne n inputs), ?_⟩
    rintro _ _ ⟨⟩
    rw [step_netlist hs hrs, step_netlist ht hrt]
    exact startNetlist_alike n inputs _ _
  | memory address => exact ⟨fun _ => by rw [step_memory hs hrs, step_memory ht hrt], by simp⟩

end Sys2Proof.Machine
end

section
/-! No combinational loop (R145): what check 2 of R72 asks of the references in an expression, it asks of the names the
expression refers to; check 1 then sets those names apart from the statement's own and the later ones. -/

namespace Sys2Proof.Machine

/-- An expression refers to a name where the name, or a port of it, stands in it. -/
theorem mem_exprNames_iff {m : NetName} (e : Expr) :
    m ∈ exprNames e ↔ .name m ∈ subExprs e ∨ ∃ p, .port m p ∈ subExprs e := by
  induction e using Expr.rec (motive_2 := fun ps =>
    m ∈ partsNames ps ↔ .name m ∈ subParts ps ∨ ∃ p, .port m p ∈ subParts ps) with
  | name n => simp [exprNames, subExprs]
  | port n p => simp [exprNames, subExprs]
  | index e i ih => simp [exprNames, subExprs, ih]
  | slice e hi lo ih => simp [exprNames, subExprs, ih]
  | concat ps ih => simp [exprNames, subExprs, ih]
  | const1 n => simp [exprNames, subExprs]
  | const4d n => simp [exprNames, subExprs]
  | const4b ds => simp [exprNames, subExprs]
  | one e ih => simp [partsNames, subParts, ih]
  | more e ps ihe ihp =>
    simp only [partsNames, subParts, List.mem_append, ihe, ihp, exists_or]
    exact or_or_or_comm

/-- Where a netlist passes the first two checks, an expression refers to declared inputs and to statements before it. -/
theorem declared_or_earlier_of_mem_exprNames {n : Netlist} {pre : List Stmt} {e : Expr} {m : NetName}
    (hn : n.names.Nodup) (hd : passes n.ctx n.stmts n.outs .definedBeforeUse = true) (hpl : n.places pre e)
    (hm : m ∈ exprNames e) : m ∈ n.decls.map Decl.name ∨ m ∈ pre.map Stmt.name := by
  obtain ⟨-, hdefined, -⟩ := namedChecksDemand n
  have hrefs := (hdefined hn).mp hd pre e hpl
  obtain hx | ⟨p, hx⟩ := (mem_exprNames_iff e).mp hm
  · exact .inl ((hrefs _ hx).1 m rfl)
  · exact .inr ((hrefs _ hx).2 m p rfl)

/-- Where no name is defined twice, the inputs and the statements before a statement share no name with it and the
statements after it. -/
theorem earlier_disjoint_from_rest {n : Netlist} {pre post : List Stmt} {st : Stmt} (hn : n.names.Nodup)
    (h : n.stmts = pre ++ st :: post) :
    (n.decls.map Decl.name ++ pre.map Stmt.name).Disjoint (st.name :: post.map Stmt.name) := by
  rw [Netlist.names, h, List.map_append, ← List.append_assoc] at hn
  exact List.disjoint_of_nodup_append hn.of_append_left

/-- Settles O40: what an argument refers to is defined before its statement, and so neither at it nor after it. -/
theorem noCombinationalLoop : Obligations.NoCombinationalLoop := by
  intro n pre post st hwf hst e he m hm
  have hpass := failedChecks_eq_nil_iff.mp hwf
  have hn := Netlist.singleAssignment_iff.mp (hpass .singleAssignment)
  have hback := declared_or_earlier_of_mem_exprNames hn (hpass .definedBeforeUse) (.inl ⟨st, post, hst, he⟩) hm
  have hlater := earlier_disjoint_from_rest hn hst (List.mem_append.mpr hback)
  exact ⟨hback, List.ne_and_not_mem_of_not_mem_cons hlater⟩

end Sys2Proof.Machine
end

section
/-! The decoder and the encoder are each other's inverse (R60 to R64, R70, R71). -/

namespace Sys2Proof.Machine

theorem decode_encode (i : Instr) : decode (encode i) = .ok i := by
  cases i with
  | ha o => cases o <;> rfl
  | fa o => cases o <;> rfl
  | rca4 o => cases o <;> rfl

/-- Settles O28: unit by unit and form by form, the decoder finds each operand where the encoder puts it. -/
theorem decodeOfEncode : Obligations.DecodeOfEncode := decode_encode

theorem encode_of_decode_driven {u : UnitName} {bits : List Signal} {i : Instr} (h : decode (.driven u bits) = .ok i) :
    encode i = .driven u bits := by
  by_cases hlen : bits.length = u.inWidth
  · obtain ⟨j, hj, -, henc⟩ := decode_driven_of_width hlen
    rw [hj] at h
    cases h
    exact henc
  · rw [decode_driven_of_other_width hlen] at h
    cases h

theorem encode_of_decode_call {u : UnitName} {args : List Int} {i : Instr} (h : decode (.call u args) = .ok i) :
    encode i = .call u args := by
  rw [decode] at h
  unfold decodeCall at h
  split at h <;> cases h <;> rfl

theorem encode_of_decode_wired {st : Stmt} {i : Instr} (h : decode (.wired st) = .ok i) : encode i = .wired st := by
  obtain ⟨site, u, args⟩ := st
  simp only [decode] at h
  unfold decodeStatement at h
  split at h <;> cases h <;> rfl

/-- Settles O29: form by form, what the decoder accepts is laid out as the encoder lays it out. -/
theorem encodeOfDecode : Obligations.EncodeOfDecode := by
  intro r i h
  cases r with
  | driven u bits => exact encode_of_decode_driven h
  | call u args => exact encode_of_decode_call h
  | wired st => exact encode_of_decode_wired h

/-- A vector is written for the operation's own unit, with as many bits as the unit's `IN` (R61 to R64). -/
theorem unit_and_width_of_encode_driven {i : Instr} {u : UnitName} {bits : List Signal}
    (h : encode i = .driven u bits) : u = i.unit ∧ bits.length = u.inWidth := by
  have hshape : Laws.EncodedShape.Statement i := by
    cases i with
    | ha o => exact Laws.EncodedShape.ha o
    | fa o => exact Laws.EncodedShape.fa o
    | rca4 o => exact Laws.EncodedShape.rca4 o
  simpa only [Laws.EncodedShape.Statement, h] using hshape

end Sys2Proof.Machine
end

section
/-! Table words (R45, R60 to R64; log 5): the width of a word names the unit, and the word's binary digits, bit 0 first,
are the signals on its `IN`. -/

namespace Sys2Proof.Machine

theorem unitOfWidth_eq_some_iff {n : Nat} {u : UnitName} : unitOfWidth n = some u ↔ n = u.inWidth := by
  constructor
  · intro h
    unfold unitOfWidth at h
    split at h <;> cases h <;> rfl
  · rintro rfl
    cases u <;> rfl

theorem decodeTableWord_of_no_unit {n : Nat} (hn : unitOfWidth n = none) (w : Nat) : decodeTableWord n w = none := by
  simp only [decodeTableWord, hn]

theorem decodeTableWord_eq_some_iff {n : Nat} {u : UnitName} (hu : unitOfWidth n = some u) {w : Nat} {i : Instr} :
    decodeTableWord n w = some i ↔ decode (.driven u (wordSignals n w)) = .ok i := by
  simp only [decodeTableWord, hu]
  cases decode (.driven u (wordSignals n w)) <;> simp

/-! A word's signals. -/

/-- A word that fits in its width is given by that many of its binary digits. -/
theorem wordSignals_of_lt {n w : Nat} (hn : n ≠ 0) (hw : w < 2 ^ n) : wordSignals n w = numberSignals n w := by
  have hlog : w.log2 < n := Nat.log2_eq_log_two ▸ Nat.log_lt_of_lt_pow' hn hw
  have hdigits : max n (w.log2 + 1) = n := Nat.max_eq_left hlog
  rw [wordSignals, hdigits, numberSignals]

/-- A word that does not fit in its width gives more signals than that (R135). -/
theorem lt_length_wordSignals {n w : Nat} (hw : 2 ^ n ≤ w) : n < (wordSignals n w).length := by
  have hw0 : w ≠ 0 := (Nat.lt_of_lt_of_le (Nat.two_pow_pos n) hw).ne'
  have hdigits : n ≤ w.log2 := (Nat.le_log2 hw0).mpr hw
  simp only [wordSignals, List.length_map, List.length_range]
  omega

theorem wordSignals_toNat {n : Nat} (hn : n ≠ 0) (w : BitVec n) :
    wordSignals n w.toNat = (List.range n).map fun k => .bit (w.extractLsb' k 1) :=
  wordSignals_of_lt hn w.isLt

theorem numberSignals_succ (n v : Nat) (b : Bit) :
    numberSignals (n + 1) (value b + 2 * v) = .bit b :: numberSignals n v := by
  have hb : value b < 2 := b.isLt
  have hhead : BitVec.ofNat 1 (value b + 2 * v) = b :=
    BitVec.eq_of_toNat_eq ((Nat.add_mul_mod_self_left ..).trans (Nat.mod_eq_of_lt hb))
  have htail (k : Nat) : (value b + 2 * v) >>> (k + 1) = v >>> k := by
    rw [Nat.add_comm k, Nat.shiftRight_add]
    congr 1
    rw [Nat.shiftRight_one]
    omega
  simp [numberSignals, List.range_succ_eq_map, hhead, htail, Function.comp_def]

/-- The number a vector stands for fits in the vector's width, and its binary digits are the vector (R60). -/
theorem packedValue_digits {bits : List Signal} {w : Nat} (h : packedValue bits = some w) :
    w < 2 ^ bits.length ∧ numberSignals bits.length w = bits := by
  induction bits generalizing w with
  | nil =>
    cases h
    exact ⟨Nat.one_pos, rfl⟩
  | cons x rest ih =>
    cases x with
    | bit b =>
      cases hrest : packedValue rest with
      | none => simp [packedValue, hrest] at h
      | some v =>
        obtain rfl : value b + 2 * v = w := by simpa [packedValue, hrest] using h
        obtain ⟨hlt, hdigits⟩ := ih hrest
        have hb : value b < 2 := b.isLt
        rw [List.length_cons, numberSignals_succ, hdigits, Nat.pow_succ]
        exact ⟨by omega, rfl⟩
    | undriven => cases h
    | unknown => cases h
    | contended => cases h

/-- An operation's word is the number of the vector the encoder writes for it. -/
theorem encode_of_inWord {i : Instr} {w : Nat} (h : inWord i = some w) :
    ∃ bits, encode i = .driven i.unit bits ∧ bits.length = i.unit.inWidth ∧ packedValue bits = some w := by
  unfold inWord at h
  split at h
  case h_1 u bits henc =>
    obtain ⟨rfl, hlen⟩ := unit_and_width_of_encode_driven henc
    exact ⟨bits, henc, hlen, h⟩
  all_goals cases h

/-- Settles O31: the word's digits are the vector the encoder writes, which decodes to the operation. -/
theorem inputWordsDecodeBack : Obligations.InputWordsDecodeBack := by
  intro i w h
  obtain ⟨bits, henc, hlen, hval⟩ := encode_of_inWord h
  obtain ⟨hlt, hdigits⟩ := packedValue_digits hval
  rw [hlen] at hlt hdigits
  have hpos : i.unit.inWidth ≠ 0 := by cases i.unit <;> decide
  refine ⟨(decodeTableWord_eq_some_iff (unitOfWidth_eq_some_iff.mpr rfl)).mpr ?_, hlt⟩
  rw [wordSignals_of_lt hpos hlt, hdigits, ← henc, decode_encode]

/-- A word that does not fit in its width is no operation: no operand is truncated into range (R135). -/
theorem decodeTableWord_of_too_wide {n w : Nat} (hw : 2 ^ n ≤ w) : decodeTableWord n w = none := by
  cases hu : unitOfWidth n with
  | none => exact decodeTableWord_of_no_unit hu w
  | some u =>
    obtain rfl := unitOfWidth_eq_some_iff.mp hu
    refine Option.eq_none_iff_forall_ne_some.mpr fun i hi => ?_
    rw [decodeTableWord_eq_some_iff hu, decode_driven_of_other_width (lt_length_wordSignals hw).ne'] at hi
    cases hi

/-- Settles O50: a word's digits are its bits, which the layout of its width's unit names; a word too wide gives too many
of them, and another width has no unit. -/
theorem tableWordsAreReadByWidth : Obligations.TableWordsAreReadByWidth := by
  refine ⟨fun w => ?ha, fun w => ?fa, fun w => ?rca4, fun n w h => ?none⟩
  case ha =>
    rw [decodeTableWord_eq_some_iff (u := .ha) rfl, wordSignals_toNat (by decide)]
    rfl
  case fa =>
    rw [decodeTableWord_eq_some_iff (u := .fa) rfl, wordSignals_toNat (by decide)]
    rfl
  case rca4 =>
    rw [decodeTableWord_eq_some_iff (u := .rca4) rfl, wordSignals_toNat (by decide), decode_driven_rca4]
  case none =>
    obtain hwide | ⟨h2, h3, h8⟩ := h
    · exact decodeTableWord_of_too_wide hwide
    · exact decodeTableWord_of_no_unit (by simp [unitOfWidth]) w

/-- Settles O27: words of 2, 3 and 8 bits are read by O50's clauses. -/
theorem writtenOutWordsDecode : Obligations.WrittenOutWordsDecode := by
  obtain ⟨hha, hfa, hrca4, -⟩ := tableWordsAreReadByWidth
  exact ⟨hha 0b10, hfa 0b011, hrca4 0b01011010, decodeTableWord_of_too_wide (Nat.le_refl _), rfl, rfl⟩

end Sys2Proof.Machine
end

section
/-! The step on what the host asks for where it may be no operation: refused by name (log 11), a table word too (log 3,
log 5). -/

namespace Sys2Proof.Machine

theorem runOp_of_decode_error {raw : RawOp} {e : DecodeError} (h : decode raw = .error e) (s : State) :
    runOp raw s = .refused (.undecodable e) := by
  simp only [runOp, h]

/-- Settles O35: the step runs what is asked for next, which the decoder rejects. -/
theorem undecodableIsRefused : Obligations.UndecodableIsRefused := by
  refine fun s e => ⟨fun u bits rest hs hr hd => ?_, fun u args rest hs hr hd => ?_⟩
  · rw [step_drive hs hr, runOp_of_decode_error hd]
  · rw [step_call hs hr, runOp_of_decode_error hd]

/-- The request for a table word drives a unit with a vector that is the word's operation, if it has one. -/
theorem fetchRequest_drives (n w : Nat) : ∃ u bits, fetchRequest n w = .drive u bits ∧
    ∀ i, decodeTableWord n w = some i ↔ decode (.driven u bits) = .ok i := by
  unfold fetchRequest
  cases hu : unitOfWidth n with
  | some u => exact ⟨u, wordSignals n w, rfl, fun i => decodeTableWord_eq_some_iff hu⟩
  | none =>
    have hempty : decode (.driven .rca4 []) = .error (.inputWidth .rca4 0) := rfl
    exact ⟨.rca4, [], rfl, fun i => by simp [decodeTableWord_of_no_unit hu, hempty]⟩

/-- Settles O36: the fetched word's request is the next, and it is run or refused as the word decodes. -/
theorem fetchedWordIsTheNextEvaluation : Obligations.FetchedWordIsTheNextEvaluation := by
  intro s n w
  obtain ⟨u, bits, hreq, hdec⟩ := fetchRequest_drives n w
  have hidle : ¬ (s.withFetchWord n w).running := State.not_running_iff.mpr ⟨rfl, rfl⟩
  have hnext : (s.withFetchWord n w).requests = .drive u bits :: s.requests := congrArg (· :: s.requests) hreq
  rw [step_drive hidle hnext]
  refine ⟨fun i hi => runOp_of_decode ((hdec i).mp hi) _, fun hnone => ?_⟩
  cases hd : decode (.driven u bits) with
  | ok i => simp [(hdec i).mpr hd] at hnone
  | error e => exact ⟨e, runOp_of_decode_error hd _⟩

end Sys2Proof.Machine
end
